-- ==== Sys2Proof/Word.lean ====
section
/-! DEFINITION. The byte: the only width this hardware has (R9, R48, R49). -/

namespace Sys2Proof

/-- A byte (u8), an unsigned integer `0..255` (R9). -/
abbrev Byte := BitVec 8

end Sys2Proof
end

