-- ==== Sys2Proof/Config.lean ====
section
/-! DEFINITION. The block's implementation parameters (R7, R24) and the model's free values. -/

namespace Sys2Proof

/-- The implementation parameters of R7. Every field is fixed before the first step and never changes (R242). The preamble and
`TYPE_RPC_COMMAND` are fixed by the spec and stand below. A parameter that the spec leaves OPEN without a default is an
`Option`: `none` leaves it open, and it then reads as a free value. -/
structure Config where
  /-- `VERSION`: the one protocol version byte accepted at position 6 (R108). -/
  version : Byte
  /-- `BUF_CAP`: how many bytes the parse buffer holds (R22). -/
  bufCap : Nat
  /-- `CODE_WIFI_SETTINGS` (R77). -/
  codeWifiSettings : Byte
  /-- `CODE_GET_CURRENT_STATE` (R77). -/
  codeGetCurrentState : Byte
  /-- `CODE_GET_DEVICE_INFO` (R77). -/
  codeGetDeviceInfo : Byte
  /-- `CODE_GET_WIFI_NETWORKS` (R77), OPEN in R7. -/
  codeGetWifiNetworks : Option Byte
  /-- `ERR_CODE_BAD_CHECKSUM`, the number of the error value `BadChecksum` on the event port, OPEN in R206. -/
  errCodeBadChecksum : Option Byte
  deriving DecidableEq, Repr

namespace Config

/-- The configuration of this hardware, as far as R7 gives it. `VERSION` and the codes of `WifiSettings` and `GetCurrentState`
are the defaults the spec takes from general knowledge: PRESUMED (log entries 2, 3), unsafe. `BUF_CAP` is the spec's own
choice D2 (log entry 6), unsafe for long frames. The two OPEN parameters stay open (log entries 4, 5), safe. -/
def default : Config where
  version := 0x01#8
  bufCap := 264
  codeWifiSettings := 0x01#8
  codeGetCurrentState := 0x02#8
  codeGetDeviceInfo := 0x04#8
  codeGetWifiNetworks := none
  errCodeBadChecksum := none

/-- `PREAMBLE` (R7): the bytes of the characters `I M P R O V`. PRESUMED: ASCII (log entry 15), unsafe if it were another
character code. -/
def preamble : List Byte := [0x49#8, 0x4D#8, 0x50#8, 0x52#8, 0x4F#8, 0x56#8]

/-- `TYPE_RPC_COMMAND` (R7). -/
def typeRpcCommand : Byte := 0x03#8

/-- Free value: what an open `CODE_GET_WIFI_NETWORKS` is drawn from (log entry 4). -/
opaque freeCode : Byte

/-- Free value: an open `ERR_CODE_BAD_CHECKSUM` (log entry 5). -/
opaque freeErrCode : Byte

/-- Free values: `cmd_code` of a command event whose payload has no byte 0, one for each value of the state's counter
`free` (log entry 10). -/
opaque freeCmdCode : Nat → Byte

end Config

end Sys2Proof
end

