-- ==== Sys2Proof/Syntax.lean ====
section
/-! DEFINITION. The instructions (one constructor per row of the opcode table), what selects them, and the values the block
puts out. -/

namespace Sys2Proof

/-- The classes of payload the command decoder tells apart: the rows of format `rpc-payload` of the opcode table, in the order
in which R140 tests them. -/
inductive DecoderRow where
  /-- `DEC.SHORT` (R141). -/
  | short
  /-- `DEC.DLEN` (R142). -/
  | dlen
  /-- `DEC.BADSUM` (R143). -/
  | badsum
  /-- `WIFI_SETTINGS.OVERRUN` (R146). -/
  | wifiSettingsOverrun
  /-- `WIFI_SETTINGS` (R145, R147). -/
  | wifiSettings
  /-- `GET_CURRENT_STATE` (R148). -/
  | getCurrentState
  /-- `GET_DEVICE_INFO` (R149). -/
  | getDeviceInfo
  /-- `GET_WIFI_NETWORKS` (R150). -/
  | getWifiNetworks
  /-- `OTHER` (R151). -/
  | other
  deriving DecidableEq, Repr

/-- The instructions: a constructor for each row of the opcode table. A frame-byte row's operand is the byte fed; a decoder
row's operands are the payload and the `verify` flag of R140. -/
inductive Instr where
  /-- `PRE0` (R102). -/
  | pre0 (b : Byte)
  /-- `PRE1` (R103). -/
  | pre1 (b : Byte)
  /-- `PRE2` (R104). -/
  | pre2 (b : Byte)
  /-- `PRE3` (R105). -/
  | pre3 (b : Byte)
  /-- `PRE4` (R106). -/
  | pre4 (b : Byte)
  /-- `PRE5` (R107). -/
  | pre5 (b : Byte)
  /-- `VER` (R108). -/
  | ver (b : Byte)
  /-- `TYPE` (R109). -/
  | typeByte (b : Byte)
  /-- `LEN` (R110). -/
  | lenByte (b : Byte)
  /-- `PAY` (R111). -/
  | pay (b : Byte)
  /-- `CSUM.BAD` (R112). -/
  | csumBad (b : Byte)
  /-- `CSUM.RPC` (R113). -/
  | csumRpc (b : Byte)
  /-- `CSUM.OTHER` (R114). -/
  | csumOther (b : Byte)
  /-- `IDLE` (R101). -/
  | idle
  /-- `RESET` (R241). -/
  | reset
  /-- `DEC.SHORT` (R141). -/
  | decShort (p : List Byte) (verify : Bool)
  /-- `DEC.DLEN` (R142). -/
  | decDlen (p : List Byte) (verify : Bool)
  /-- `DEC.BADSUM` (R143). -/
  | decBadsum (p : List Byte) (verify : Bool)
  /-- `WIFI_SETTINGS` (R145). -/
  | wifiSettings (p : List Byte) (verify : Bool)
  /-- `WIFI_SETTINGS.OVERRUN` (R146). -/
  | wifiSettingsOverrun (p : List Byte) (verify : Bool)
  /-- `GET_CURRENT_STATE` (R148). -/
  | getCurrentState (p : List Byte) (verify : Bool)
  /-- `GET_DEVICE_INFO` (R149). -/
  | getDeviceInfo (p : List Byte) (verify : Bool)
  /-- `GET_WIFI_NETWORKS` (R150). -/
  | getWifiNetworks (p : List Byte) (verify : Bool)
  /-- `OTHER` (R151). -/
  | otherCode (p : List Byte) (verify : Bool)
  deriving DecidableEq, Repr

/-- The instruction of a decoder row on its operands. -/
def DecoderRow.toInstr (row : DecoderRow) (p : List Byte) (verify : Bool) : Instr :=
  match row with
  | .short => .decShort p verify
  | .dlen => .decDlen p verify
  | .badsum => .decBadsum p verify
  | .wifiSettingsOverrun => .wifiSettingsOverrun p verify
  | .wifiSettings => .wifiSettings p verify
  | .getCurrentState => .getCurrentState p verify
  | .getDeviceInfo => .getDeviceInfo p verify
  | .getWifiNetworks => .getWifiNetworks p verify
  | .other => .otherCode p verify

/-- What the environment presents at one step. -/
inductive Stimulus where
  /-- The ports `rst` (R26) and `in` (R25). -/
  | ports (rst : Bool) (inp : Option Byte)
  /-- A call of the command decoder by another user than the receiver (R4, R143). DESIGN CHOICE (log entry 9), safe. -/
  | decode (p : List Byte) (verify : Bool)
  deriving DecidableEq, Repr

namespace Stimulus

/-- The step `RESET` (R241), with no byte on `in`. -/
abbrev rst : Stimulus := .ports true none

/-- The step `IDLE` (R101). -/
abbrev noByte : Stimulus := .ports false none

/-- The step `FEED(b)` (R6). -/
abbrev feed (b : Byte) : Stimulus := .ports false (some b)

end Stimulus

/-- What selects the class of an incoming byte beside the byte itself (R68): the cursor, and from the buffer the length `L`, the
type byte and the sum of the frame so far. A view is `none` where the buffer does not define it (R23, R47). -/
structure Context where
  pos : Nat
  len : Option Byte
  ftype : Option Byte
  sum : Option Byte
  deriving DecidableEq, Repr

namespace Context

/-- A context inside the header, where only the cursor selects (R68, positions 0 to 8). -/
def header (pos : Nat) : Context := ⟨pos, none, none, none⟩

end Context

/-- An encoded instruction: what is presented, and the context it is presented in. -/
structure Encoded where
  ctx : Context
  stim : Stimulus
  deriving DecidableEq, Repr

/-- Why the decoder rejects, by name. -/
inductive Reject where
  /-- `pos > 9 + L` with `pos >= 9`, or another broken invariant (R33, R120). -/
  | invariantBroken
  /-- A view of the buffer that the class depends on is not defined (R47). -/
  | undefinedRead
  deriving DecidableEq, Repr

/-- What the decoder reads: an instruction, or a rejection by name. -/
inductive Decoded where
  | instr (i : Instr)
  | reject (r : Reject)
  deriving DecidableEq, Repr

/-- The command values (R29). -/
inductive Command where
  | getCurrentState
  | wifiSettings (ssid password : List Byte)
  | getDeviceInfo
  | getWifiNetworks
  | unknown
  | badChecksum
  | other (code : Byte)
  deriving DecidableEq, Repr

/-- The error values (R30). -/
inductive ErrorCode where
  | none
  | invalidRpc
  | unknownRpc
  | unableToConnect
  | badChecksum
  deriving DecidableEq, Repr

/-- The decoder's answer `Command ⊕ Malformed` (R140). -/
inductive Verdict where
  | command (c : Command)
  | malformed
  deriving DecidableEq, Repr

/-- The output `acc` (R27). -/
inductive Acc where
  | none
  | accept
  | reject
  deriving DecidableEq, Repr

/-- The output `ev` (R28). -/
inductive Event where
  | none
  | err (e : ErrorCode)
  | cmd (c : Command)
  deriving DecidableEq, Repr

end Sys2Proof
end

