-- ==== Sys2Proof/Machine/Operands.lean ====
section
/-! DEFINITION. The operand forms: sums of bytes, the fields of an RPC payload, the class of a payload. -/

namespace Sys2Proof

/-- The first of `r`, `r+1`, `r+2`, `r+3` that none of three codes takes. Every byte that is no such code is reached (by `r`
itself), and one of the four is always free. -/
def Config.avoid (x y z r : Byte) : Byte :=
  if r ≠ x ∧ r ≠ y ∧ r ≠ z then r
  else if r + 1 ≠ x ∧ r + 1 ≠ y ∧ r + 1 ≠ z then r + 1
  else if r + 2 ≠ x ∧ r + 2 ≠ y ∧ r + 2 ≠ z then r + 2
  else r + 3

/-- `CODE_GET_WIFI_NETWORKS` (R7): the configured byte, or, left open, a free byte that differs from the other three codes (R7
has the four pairwise distinct). DESIGN CHOICE (log entry 4), safe. -/
def Config.wifiNetworksCode (c : Config) : Byte :=
  c.codeGetWifiNetworks.getD (Config.avoid c.codeWifiSettings c.codeGetCurrentState c.codeGetDeviceInfo Config.freeCode)

/-- The number of the error value `BadChecksum` (R206): the configured byte, or, left open, a free byte. DESIGN CHOICE (log
entry 5), safe. -/
def Config.badChecksumCode (c : Config) : Byte :=
  c.errCodeBadChecksum.getD Config.freeErrCode

/-- `Sum8` (R118): the exact sum of the bytes as integers, modulo 256. -/
def sum8 (xs : List Byte) : Byte :=
  BitVec.ofNat 8 (xs.map BitVec.toNat).sum

/-- `v` of R140 as an integer. -/
def verifyLen (verify : Bool) : Int := if verify then 1 else 0

/-- The strings of a `WifiSettings` payload (R145, R147), or `none` where `S` or `P` overruns the declared data `E = 2 + D`
(R146). The three tests stand in the order of R140, so no byte at or beyond `E` is read. -/
def wifiFields (p : List Byte) : Option (List Byte × List Byte) :=
  match p with
  | _ :: d :: _ =>
    let e := 2 + d.toNat
    if 3 > e then none
    else
      match p[2]? with
      | none => none
      | some s =>
        if 3 + s.toNat + 1 > e then none
        else
          match p[3 + s.toNat]? with
          | none => none
          | some pw =>
            if 4 + s.toNat + pw.toNat > e then none
            else some ((p.drop 3).take s.toNat, (p.drop (4 + s.toNat)).take pw.toNat)
  | _ => none

/-- Which row of the opcode table a payload selects (R140, R207): the length tests, then the payload checksum in verify mode,
then the command code, compared whole with the four configured codes in the order of R140 (R144). -/
def classify (c : Config) (p : List Byte) (verify : Bool) : DecoderRow :=
  match p with
  | code :: d :: _ =>
    if (d.toNat : Int) ≠ (p.length : Int) - 2 - verifyLen verify then .dlen
    else if verify = true ∧ p.getLast? ≠ some (sum8 p.dropLast) then .badsum
    else if code = c.codeWifiSettings then
      match wifiFields p with
      | none => .wifiSettingsOverrun
      | some _ => .wifiSettings
    else if code = c.codeGetCurrentState then .getCurrentState
    else if code = c.codeGetDeviceInfo then .getDeviceInfo
    else if code = c.wifiNetworksCode then .getWifiNetworks
    else .other
  | _ => .short

end Sys2Proof
end

