-- ==== Sys2Proof/WellFormed.lean ====
section
/-! DEFINITION. Which configurations and which instructions are well-formed. -/

namespace Sys2Proof

/-- The four command codes are pairwise distinct and `BUF_CAP >= 9` (R7). A code left open differs from the others by its
reading (`Config.wifiNetworksCode`), so only the codes that are given are compared. -/
def Config.wf (c : Config) : Bool :=
  decide (9 ≤ c.bufCap)
    && decide (c.codeWifiSettings ≠ c.codeGetCurrentState)
    && decide (c.codeWifiSettings ≠ c.codeGetDeviceInfo)
    && decide (c.codeGetCurrentState ≠ c.codeGetDeviceInfo)
    && match c.codeGetWifiNetworks with
      | none => true
      | some g =>
        decide (g ≠ c.codeWifiSettings) && decide (g ≠ c.codeGetCurrentState) && decide (g ≠ c.codeGetDeviceInfo)

/-- A frame-byte row takes every byte (R78: an illegal byte is rejected by the row's meaning, it is no ill-formed instruction);
the two step rows have no operand; a decoder row's operands are well-formed when the decoder puts them in that row (R140). -/
def Instr.wf (c : Config) (i : Instr) : Bool :=
  match i with
  | .pre0 _ => true
  | .pre1 _ => true
  | .pre2 _ => true
  | .pre3 _ => true
  | .pre4 _ => true
  | .pre5 _ => true
  | .ver _ => true
  | .typeByte _ => true
  | .lenByte _ => true
  | .pay _ => true
  | .csumBad _ => true
  | .csumRpc _ => true
  | .csumOther _ => true
  | .idle => true
  | .reset => true
  | .decShort p v => decide (classify c p v = .short)
  | .decDlen p v => decide (classify c p v = .dlen)
  | .decBadsum p v => decide (classify c p v = .badsum)
  | .wifiSettings p v => decide (classify c p v = .wifiSettings)
  | .wifiSettingsOverrun p v => decide (classify c p v = .wifiSettingsOverrun)
  | .getCurrentState p v => decide (classify c p v = .getCurrentState)
  | .getDeviceInfo p v => decide (classify c p v = .getDeviceInfo)
  | .getWifiNetworks p v => decide (classify c p v = .getWifiNetworks)
  | .otherCode p v => decide (classify c p v = .other)

end Sys2Proof
end

