-- ==== Sys2Proof/Decode.lean ====
section
/-! DEFINITION. From what the environment presents to an instruction, and back; the frame and payload encodings. -/

namespace Sys2Proof

/-- The class of an incoming byte (R68, R100): by the cursor, and from position 9 on by `L`; at the checksum position by the
byte against the sum, then by the frame type (R112, R113, R114, R207). Beyond the checksum position there is no class (R120). -/
def decodeByte (c : Context) (b : Byte) : Decoded :=
  match c.pos with
  | 0 => .instr (.pre0 b)
  | 1 => .instr (.pre1 b)
  | 2 => .instr (.pre2 b)
  | 3 => .instr (.pre3 b)
  | 4 => .instr (.pre4 b)
  | 5 => .instr (.pre5 b)
  | 6 => .instr (.ver b)
  | 7 => .instr (.typeByte b)
  | 8 => .instr (.lenByte b)
  | k + 9 =>
    match c.len with
    | none => .reject .undefinedRead
    | some l =>
      if k + 9 ≤ 8 + l.toNat then .instr (.pay b)
      else if k + 9 = 9 + l.toNat then
        match c.sum, c.ftype with
        | some x, some t =>
          if b ≠ x then .instr (.csumBad b)
          else if t = Config.typeRpcCommand then .instr (.csumRpc b)
          else .instr (.csumOther b)
        | _, _ => .reject .undefinedRead
      else .reject .invariantBroken

/-- The instruction a stimulus selects in a context: `RESET` when `rst` is asserted, whatever is on `in` (R26); `IDLE` when no
byte is available (R25); a byte's class (R68); a payload's row (R140). Total, and rejecting by name. -/
def decode (c : Config) (e : Encoded) : Decoded :=
  match e.stim with
  | .ports true _ => .instr .reset
  | .ports false none => .instr .idle
  | .ports false (some b) => decodeByte e.ctx b
  | .decode p v => .instr ((classify c p v).toInstr p v)

/-- The encoding of an instruction: the byte or payload that is its operand, in a context that selects it (the `select` column
of the opcode table, R68). Where several contexts select it, the shortest frame that does. -/
def encode (i : Instr) : Encoded :=
  match i with
  | .pre0 b => ⟨.header 0, .feed b⟩
  | .pre1 b => ⟨.header 1, .feed b⟩
  | .pre2 b => ⟨.header 2, .feed b⟩
  | .pre3 b => ⟨.header 3, .feed b⟩
  | .pre4 b => ⟨.header 4, .feed b⟩
  | .pre5 b => ⟨.header 5, .feed b⟩
  | .ver b => ⟨.header 6, .feed b⟩
  | .typeByte b => ⟨.header 7, .feed b⟩
  | .lenByte b => ⟨.header 8, .feed b⟩
  | .pay b => ⟨⟨9, some 1#8, none, none⟩, .feed b⟩
  | .csumBad b => ⟨⟨9, some 0#8, some 0#8, some (b + 1#8)⟩, .feed b⟩
  | .csumRpc b => ⟨⟨9, some 0#8, some Config.typeRpcCommand, some b⟩, .feed b⟩
  | .csumOther b => ⟨⟨9, some 0#8, some 0#8, some b⟩, .feed b⟩
  | .idle => ⟨.header 0, .noByte⟩
  | .reset => ⟨.header 0, .rst⟩
  | .decShort p v => ⟨.header 0, .decode p v⟩
  | .decDlen p v => ⟨.header 0, .decode p v⟩
  | .decBadsum p v => ⟨.header 0, .decode p v⟩
  | .wifiSettings p v => ⟨.header 0, .decode p v⟩
  | .wifiSettingsOverrun p v => ⟨.header 0, .decode p v⟩
  | .getCurrentState p v => ⟨.header 0, .decode p v⟩
  | .getDeviceInfo p v => ⟨.header 0, .decode p v⟩
  | .getWifiNetworks p v => ⟨.header 0, .decode p v⟩
  | .otherCode p v => ⟨.header 0, .decode p v⟩

/-! ### Frames and payloads (R65, R74, R76, R81) -/

/-- The bytes of a frame before its checksum byte (R65): preamble, version, type, length, payload. -/
def frameBody (version ftype : Byte) (p : List Byte) : List Byte :=
  Config.preamble ++ [version, ftype, BitVec.ofNat 8 p.length] ++ p

/-- `FRAME(t, p)` (R81): the whole frame, its checksum the sum of all the bytes before it (R67). For `|p| <= 255`. -/
def frame (version ftype : Byte) (p : List Byte) : List Byte :=
  frameBody version ftype p ++ [sum8 (frameBody version ftype p)]

/-- `RPC(code, data)` (R81, R74). For `|data| <= 253`. -/
def rpcPayload (code : Byte) (data : List Byte) : List Byte :=
  [code, BitVec.ofNat 8 data.length] ++ data

/-- `WIFI(ssid, pw)` (R81, R76). -/
def wifiPayload (c : Config) (ssid pw : List Byte) : List Byte :=
  rpcPayload c.codeWifiSettings
    ([BitVec.ofNat 8 ssid.length] ++ ssid ++ [BitVec.ofNat 8 pw.length] ++ pw)

/-! ### Words of the opcode table -/

/-- The `n` low bytes of a number, the least significant first. -/
def bytesOf (n w : Nat) : List Byte :=
  match n with
  | 0 => []
  | n + 1 => BitVec.ofNat 8 w :: bytesOf n (w / 256)

/-- Where a word of the opcode table is presented (log entry 7). No bits: the absence of a byte, `IDLE` (R101). One byte: the
row of the table whose `match` is that byte, a preamble byte at its position (R102 to R107), the version byte at position 6
(R108), the code of `GetDeviceInfo` as a payload whose `D` is zero (R149); any other byte at position 7, which takes every byte
(R109). More bytes: a payload. -/
def placeWord (c : Config) (nbits w : Nat) : Encoded :=
  if nbits = 0 then ⟨.header 0, .noByte⟩
  else if nbits ≤ 8 then
    let b := BitVec.ofNat 8 w
    if b = 0x49#8 then ⟨.header 0, .feed b⟩
    else if b = 0x4D#8 then ⟨.header 1, .feed b⟩
    else if b = 0x50#8 then ⟨.header 2, .feed b⟩
    else if b = 0x52#8 then ⟨.header 3, .feed b⟩
    else if b = 0x4F#8 then ⟨.header 4, .feed b⟩
    else if b = 0x56#8 then ⟨.header 5, .feed b⟩
    else if b = c.version then ⟨.header 6, .feed b⟩
    else if b = c.codeGetDeviceInfo then ⟨.header 0, .decode [b, 0#8] false⟩
    else ⟨.header 7, .feed b⟩
  else ⟨.header 0, .decode (bytesOf ((nbits + 7) / 8) w) false⟩

/-- The instruction the decoder reads from a word of the opcode table, under the default configuration. -/
def decodeTableWord (nbits w : Nat) : Option Instr :=
  match decode Config.default (placeWord Config.default nbits w) with
  | .instr i => some i
  | .reject _ => none

end Sys2Proof
end

