-- ==== Sys2Proof/Machine/State.lean ====
section
/-! DEFINITION. The state as plain data, the state after reset, and the reasons a step can stop. -/

namespace Sys2Proof.Machine

/-- The parse buffer (R22, R45): (address, byte) cells, addresses strictly rising; an address that is not listed is undefined,
never written since reset (R20). -/
abbrev Memory := List Host.Cell

/-- What an address that is not listed reads as: nothing (R22, "bytes beyond `position` are undefined"), so that reading it
faults (log entry 11), safe. -/
def Memory.unlisted : Option Byte := none

/-- The machine. `cfg` is the configuration, which no step changes (R24, R242; log entry 1); `pos` and `buf` are the block's
architectural state (R20); `acc`, `ev` and `cmdCode` are the outputs of the last step (R27, R28, R206; log entry 8). The model's own fields:
`dec`, the decoder's answer in the last step (log entry 9); `inq`, what the environment will present, one stimulus a step (log
entry 7); `free`, which free value is next (log entry 10). -/
structure State where
  cfg : Config
  pos : Nat
  buf : Memory
  acc : Acc
  ev : Event
  cmdCode : Option Byte
  dec : Option Verdict
  inq : List Stimulus
  free : Nat
  deriving DecidableEq, Repr

/-- The state and outputs after `RESET` and at power-on (R32, R241). DESIGN CHOICE: `inq` is empty (log entry 7), `dec` is
`none` (log entry 9) and `free` is 0 (log entry 10). -/
def State.reset : State where
  cfg := Config.default
  pos := 0
  buf := []
  acc := .none
  ev := .none
  cmdCode := none
  dec := none
  inq := []
  free := 0

/-- Why the machine stops with a fault. -/
inductive Fault where
  /-- `Fault(InvariantBroken)` (R33, R120): raised by a `FEED` step in a state that breaks an invariant. Safe: no run from reset
  reaches one. -/
  | invariantBroken
  /-- `Fault(UndefinedRead)` (R47): raised where a byte is read that is not below the cursor. Safe: no rule reads one. -/
  | undefinedRead
  /-- A write outside the precondition of `BufWrite` (R46): raised by `bufWrite`. Safe: every write of a rule meets it. -/
  | writeOutOfPlace
  deriving DecidableEq, Repr

/-- Why the model gives no meaning. -/
inductive Refusal where
  /-- An instruction whose arm in `exec` has no meaning yet. Safe. -/
  | notModelled (mnemonic : String)
  /-- The configuration is ill-formed (R7: "the model refuses it"): raised by `step`. Safe. -/
  | illFormedConfig
  /-- `exec` is asked to run an instruction in a state or on operands that do not select it (R68, R140; log entry 12): raised by
  the meanings, never by `step`, which runs what the decoder selects. Safe. -/
  | notSelected
  deriving DecidableEq, Repr

end Sys2Proof.Machine
end

