-- ==== Sys2Proof/Machine/Ops.lean ====
section
/-! DEFINITION. The named operations over the parse buffer, the cursor and the outputs. -/

namespace Sys2Proof.Machine

/-- The outcome of every operation. -/
abbrev Result := Host.Outcome State Fault Refusal

/-- Go on with `f` where `r` is a next state; stop where it stops. -/
def andThen (r : Result) (f : State → Result) : Result :=
  match r with
  | .next s => f s
  | .fault e => .fault e
  | .refused e => .refused e

/-! ### The parse buffer -/

/-- The byte at an address, stale or not (R20, R22). -/
def Memory.read (m : Memory) (a : Nat) : Option Byte :=
  match m with
  | [] => Memory.unlisted
  | (k, b) :: rest => if k = a then some b else Memory.read rest a

/-- Write one byte, keeping the addresses rising. -/
def Memory.write (m : Memory) (a : Nat) (b : Byte) : Memory :=
  match m with
  | [] => [(a, b)]
  | (k, c) :: rest =>
    if a < k then (a, b) :: (k, c) :: rest
    else if a = k then (a, b) :: rest
    else (k, c) :: Memory.write rest a b

/-- The addresses are above `lo` and strictly rising. -/
def Memory.risingFrom (lo : Nat) (m : Memory) : Bool :=
  match m with
  | [] => true
  | (k, _) :: rest => decide (lo ≤ k) && Memory.risingFrom (k + 1) rest

/-- The canonical form: addresses strictly rising. (No listed byte equals what an unlisted address reads as, since that is no
byte.) -/
def Memory.wf (m : Memory) : Bool := Memory.risingFrom 0 m

/-- No address at or beyond `cap` is listed (R45). -/
def Memory.within (cap : Nat) (m : Memory) : Bool := m.all fun cell => decide (cell.1 < cap)

/-- `BufRead(i)` (R47): defined for `i < pos` only; `none` is `Fault(UndefinedRead)`. -/
def bufRead (s : State) (i : Nat) : Option Byte :=
  if i < s.pos then s.buf.read i else none

/-- `BufRead(i) .. BufRead(i + n - 1)`. -/
def bufReadRange (s : State) (i n : Nat) : Option (List Byte) :=
  match n with
  | 0 => some []
  | n + 1 =>
    match bufRead s i, bufReadRange s (i + 1) n with
    | some b, some bs => some (b :: bs)
    | _, _ => none

/-- `BufWrite(i, b)` (R46), with its precondition. -/
def bufWrite (i : Nat) (b : Byte) (s : State) : Result :=
  if i = s.pos ∧ i < s.cfg.bufCap then .next { s with buf := s.buf.write i b } else .fault .writeOutOfPlace

/-- `PAYLOAD` (R23): the `L` bytes from index 9. -/
def payload (s : State) : Option (List Byte) :=
  match bufRead s 8 with
  | none => none
  | some l => bufReadRange s 9 l.toNat

/-! ### The cursor and the outputs -/

/-- Set the cursor. -/
def State.setPos (s : State) (n : Nat) : State := { s with pos := n }

/-- Drive the outputs of a step (R27, R28, R206) and the decoder's answer. -/
def State.drive (s : State) (acc : Acc) (ev : Event) (cmdCode : Option Byte) (dec : Option Verdict) : State :=
  { s with acc := acc, ev := ev, cmdCode := cmdCode, dec := dec }

/-- Drive a verdict and no event; the decoder is not called. -/
def State.verdictOnly (s : State) (acc : Acc) : State := s.drive acc .none none none

/-- The return to position 0 on a reject or at the end of a frame (R209, "Entry"): the one state change is `pos <- 0`; nothing
is saved, no byte is stored, and the next byte is matched against position 0. No operation returns from it (R210). -/
def State.toStart (s : State) : State := s.setPos 0

/-! ### The common actions -/

/-- `REJECT` (R116): the byte is discarded, and no event is produced (R201). -/
def reject (s : State) : Result := .next (s.toStart.verdictOnly .reject)

/-- `OVERFLOW` (R117): a silent reject. -/
def overflow (s : State) : Result := reject s

/-- `ADVANCE(b)` (R115). -/
def advance (b : Byte) (s : State) : Result :=
  if s.pos < s.cfg.bufCap then
    andThen (bufWrite s.pos b s) fun t => .next ((t.setPos (s.pos + 1)).verdictOnly .accept)
  else overflow s

/-- Advance on the one byte a position accepts, reject any other (R102 to R108). -/
def expect (want b : Byte) (s : State) : Result :=
  if b = want then advance b s else reject s

/-! ### What is presented, and where -/

/-- What the environment presents at this step; past the end of the list, no byte (log entry 7). -/
def State.stimulus (s : State) : Stimulus :=
  match s.inq with
  | [] => .noByte
  | x :: _ => x

/-- The step takes what is presented: the same byte is never presented again (R52). -/
def State.consume (s : State) : State := { s with inq := s.inq.tail }

/-- The views of the buffer that select a byte's class (R23, R68). -/
def State.context (s : State) : Context where
  pos := s.pos
  len := bufRead s 8
  ftype := bufRead s 7
  sum := (bufReadRange s 0 s.pos).map sum8

/-- INV2 (R33): every entry below the cursor is defined. -/
def State.inv2 (s : State) : Bool :=
  (List.range s.pos).all fun i => (s.buf.read i).isSome

/-- INV3 (R33): below the cursor the buffer starts with the preamble and the version byte. -/
def State.inv3 (s : State) : Bool :=
  (List.range (min s.pos 6)).all (fun i => decide (s.buf.read i = Config.preamble[i]?))
    && (decide (s.pos < 7) || decide (s.buf.read 6 = some s.cfg.version))

/-- INV4 (R33): the cursor is at or before the checksum position. -/
def State.inv4 (s : State) : Bool :=
  decide (s.pos < 9) ||
    match s.buf.read 8 with
    | none => false
    | some l => decide (s.pos ≤ 9 + l.toNat)

/-- The invariants INV1 to INV4 of R33, which one state can show. -/
def State.assertions (s : State) : Bool :=
  decide (s.pos ≤ s.cfg.bufCap) && s.inv2 && s.inv3 && s.inv4

/-- The instruction of this step, or why there is none. A byte is classified only in a state that meets the invariants (R33,
R120; log entry 13). -/
def fetch (s : State) : Decoded :=
  match s.stimulus with
  | .ports true _ => decode s.cfg ⟨s.context, s.stimulus⟩
  | .ports false none => decode s.cfg ⟨s.context, s.stimulus⟩
  | .ports false (some _) => if s.assertions then decode s.cfg ⟨s.context, s.stimulus⟩ else .reject .invariantBroken
  | .decode _ _ => decode s.cfg ⟨s.context, s.stimulus⟩

/-- The fault that a rejection of the decoder raises. -/
def faultOf (r : Reject) : Fault :=
  match r with
  | .invariantBroken => .invariantBroken
  | .undefinedRead => .undefinedRead

/-- Run `act` where the byte's class in this state is `i`; elsewhere the model gives `i` no meaning (log entry 12). -/
def whenClassIs (i : Instr) (b : Byte) (s : State) (act : Result) : Result :=
  if decodeByte s.context b = .instr i then act else .refused .notSelected

end Sys2Proof.Machine
end

