-- ==== Sys2Proof/Machine/CommandDecoder.lean ====
section
/-! DEFINITION. The command decoder: the answer of each row, and the rows as instructions (R140 to R155). -/

namespace Sys2Proof.Machine

/-- `DEC.SHORT` (R141). -/
def answerShort (_p : List Byte) : Verdict := .command .unknown

/-- `DEC.DLEN` (R142). -/
def answerDlen (_p : List Byte) : Verdict := .command .unknown

/-- `DEC.BADSUM` (R143). -/
def answerBadsum (_p : List Byte) : Verdict := .command .badChecksum

/-- `WIFI_SETTINGS` (R145): both strings, raw; what follows the password inside the declared data is ignored (R147). -/
def answerWifiSettings (p : List Byte) : Verdict :=
  match wifiFields p with
  | none => .malformed
  | some (ssid, password) => .command (.wifiSettings ssid password)

/-- `WIFI_SETTINGS.OVERRUN` (R146). -/
def answerOverrun (_p : List Byte) : Verdict := .malformed

/-- `GET_CURRENT_STATE` (R148): data bytes are ignored. -/
def answerGetCurrentState (_p : List Byte) : Verdict := .command .getCurrentState

/-- `GET_DEVICE_INFO` (R149): data bytes are ignored. -/
def answerGetDeviceInfo (_p : List Byte) : Verdict := .command .getDeviceInfo

/-- `GET_WIFI_NETWORKS` (R150): data bytes are ignored. -/
def answerGetWifiNetworks (_p : List Byte) : Verdict := .command .getWifiNetworks

/-- `OTHER` (R151): the raw code byte. (A payload of this row has a byte 0; without one the answer is that of R141.) -/
def answerOther (p : List Byte) : Verdict :=
  match p with
  | [] => .command .unknown
  | code :: _ => .command (.other code)

/-- The decoder's answer for a payload of a row. -/
def answer (row : DecoderRow) (p : List Byte) : Verdict :=
  match row with
  | .short => answerShort p
  | .dlen => answerDlen p
  | .badsum => answerBadsum p
  | .wifiSettingsOverrun => answerOverrun p
  | .wifiSettings => answerWifiSettings p
  | .getCurrentState => answerGetCurrentState p
  | .getDeviceInfo => answerGetDeviceInfo p
  | .getWifiNetworks => answerGetWifiNetworks p
  | .other => answerOther p

/-- `DECODE(p, verify)` (R140): a pure function (R154). -/
def decodeCommand (c : Config) (p : List Byte) (verify : Bool) : Verdict :=
  answer (classify c p verify) p

/-- A decoder row run on its own, as a call of the decoder (log entry 9): the answer appears on `dec`, and nothing else
happens, since the decoder writes no state and emits nothing itself (R154). On operands of another row it has no meaning (log
entry 12). -/
def runRow (row : DecoderRow) (result : Verdict) (p : List Byte) (verify : Bool) (s : State) : Result :=
  if classify s.cfg p verify = row then .next (s.drive .none .none none (some result)) else .refused .notSelected

/-- `DEC.SHORT` (R141). -/
def execDecShort (p : List Byte) (verify : Bool) (s : State) : Result := runRow .short (answerShort p) p verify s

/-- `DEC.DLEN` (R142). -/
def execDecDlen (p : List Byte) (verify : Bool) (s : State) : Result := runRow .dlen (answerDlen p) p verify s

/-- `DEC.BADSUM` (R143). -/
def execDecBadsum (p : List Byte) (verify : Bool) (s : State) : Result := runRow .badsum (answerBadsum p) p verify s

/-- `WIFI_SETTINGS` (R145, R147). -/
def execWifiSettings (p : List Byte) (verify : Bool) (s : State) : Result :=
  runRow .wifiSettings (answerWifiSettings p) p verify s

/-- `WIFI_SETTINGS.OVERRUN` (R146). -/
def execWifiSettingsOverrun (p : List Byte) (verify : Bool) (s : State) : Result :=
  runRow .wifiSettingsOverrun (answerOverrun p) p verify s

/-- `GET_CURRENT_STATE` (R148). -/
def execGetCurrentState (p : List Byte) (verify : Bool) (s : State) : Result :=
  runRow .getCurrentState (answerGetCurrentState p) p verify s

/-- `GET_DEVICE_INFO` (R149). -/
def execGetDeviceInfo (p : List Byte) (verify : Bool) (s : State) : Result :=
  runRow .getDeviceInfo (answerGetDeviceInfo p) p verify s

/-- `GET_WIFI_NETWORKS` (R150). -/
def execGetWifiNetworks (p : List Byte) (verify : Bool) (s : State) : Result :=
  runRow .getWifiNetworks (answerGetWifiNetworks p) p verify s

/-- `OTHER` (R151). -/
def execOtherCode (p : List Byte) (verify : Bool) (s : State) : Result := runRow .other (answerOther p) p verify s

end Sys2Proof.Machine
end

