-- ==== Sys2Proof/Machine/FrameReceiver.lean ====
section
/-! DEFINITION. The frame receiver: the meaning of each position class, and the two steps without a byte (R100 to R118, R241). -/

namespace Sys2Proof.Machine

/-! ### Preamble detection and version check -/

/-- `PRE0` (R102): `I`. -/
def execPre0 (b : Byte) (s : State) : Result := whenClassIs (.pre0 b) b s (expect 0x49#8 b s)

/-- `PRE1` (R103): `M`. -/
def execPre1 (b : Byte) (s : State) : Result := whenClassIs (.pre1 b) b s (expect 0x4D#8 b s)

/-- `PRE2` (R104): `P`. -/
def execPre2 (b : Byte) (s : State) : Result := whenClassIs (.pre2 b) b s (expect 0x50#8 b s)

/-- `PRE3` (R105): `R`. -/
def execPre3 (b : Byte) (s : State) : Result := whenClassIs (.pre3 b) b s (expect 0x52#8 b s)

/-- `PRE4` (R106): `O`. -/
def execPre4 (b : Byte) (s : State) : Result := whenClassIs (.pre4 b) b s (expect 0x4F#8 b s)

/-- `PRE5` (R107): `V`. -/
def execPre5 (b : Byte) (s : State) : Result := whenClassIs (.pre5 b) b s (expect 0x56#8 b s)

/-- `VER` (R108). -/
def execVer (b : Byte) (s : State) : Result := whenClassIs (.ver b) b s (expect s.cfg.version b s)

/-! ### Accumulation -/

/-- `TYPE` (R109): every byte is accepted. -/
def execTypeByte (b : Byte) (s : State) : Result := whenClassIs (.typeByte b) b s (advance b s)

/-- `LEN` (R110): every byte is accepted. -/
def execLenByte (b : Byte) (s : State) : Result := whenClassIs (.lenByte b) b s (advance b s)

/-- `PAY` (R111): every byte is accepted, or overflows the buffer (R117). -/
def execPay (b : Byte) (s : State) : Result := whenClassIs (.pay b) b s (advance b s)

/-! ### Checksum validation -/

/-- `CSUM.BAD` (R112): `ERR(InvalidRpc)` for every frame type. -/
def execCsumBad (b : Byte) (s : State) : Result :=
  whenClassIs (.csumBad b) b s (.next (s.toStart.drive .reject (.err .invalidRpc) none none))

/-- Deliver the decoder's answer `r` for the payload `p` (R113): a malformed command is the error event `InvalidRpc` (R203), any
other answer a command event (R205). `cmd_code` is the payload's byte 0 (R206); a payload without one has a free value there
(log entry 10). -/
def deliver (p : List Byte) (r : Verdict) (s : State) : Result :=
  match r with
  | .malformed => .next (s.toStart.drive .accept (.err .invalidRpc) none (some r))
  | .command c =>
    match p with
    | code :: _ => .next (s.toStart.drive .accept (.cmd c) (some code) (some r))
    | [] =>
      .next ({ s with free := s.free + 1 }.toStart.drive .accept (.cmd c) (some (Config.freeCmdCode s.free)) (some r))

/-- `CSUM.RPC` (R113): decode the payload without a payload checksum (R152), then deliver the answer. The checksum, the decode
and the cursor's return are one step (R51). -/
def execCsumRpc (b : Byte) (s : State) : Result :=
  whenClassIs (.csumRpc b) b s
    (match payload s with
    | none => .fault .undefinedRead
    | some p => deliver p (decodeCommand s.cfg p false) s)

/-- `CSUM.OTHER` (R114): the frame completes with no event. -/
def execCsumOther (b : Byte) (s : State) : Result :=
  whenClassIs (.csumOther b) b s (.next (s.toStart.verdictOnly .accept))

/-! ### Steps without a byte -/

/-- `IDLE` (R101): the cursor and the buffer stay. -/
def execIdle (s : State) : Result := .next (s.verdictOnly .none)

/-- `RESET` (R241): the cursor at 0 and every buffer entry undefined. The configuration, what the environment will present and
the free values' counter are not the block's state. -/
def execReset (s : State) : Result := .next ({ s with buf := [] }.toStart.verdictOnly .none)

end Sys2Proof.Machine
end

