-- ==== Sys2Proof/Machine/Dispatch.lean ====
section
/-! DEFINITION. One arm per instruction. -/

namespace Sys2Proof.Machine

def exec (i : Instr) (s : State) : Host.Outcome State Fault Refusal :=
  match i with
  | .pre0 b => Sys2Proof.Machine.execPre0 b s
  | .pre1 b => Sys2Proof.Machine.execPre1 b s
  | .pre2 b => Sys2Proof.Machine.execPre2 b s
  | .pre3 b => Sys2Proof.Machine.execPre3 b s
  | .pre4 b => Sys2Proof.Machine.execPre4 b s
  | .pre5 b => Sys2Proof.Machine.execPre5 b s
  | .ver b => Sys2Proof.Machine.execVer b s
  | .typeByte b => Sys2Proof.Machine.execTypeByte b s
  | .lenByte b => Sys2Proof.Machine.execLenByte b s
  | .pay b => Sys2Proof.Machine.execPay b s
  | .csumBad b => Sys2Proof.Machine.execCsumBad b s
  | .csumRpc b => Sys2Proof.Machine.execCsumRpc b s
  | .csumOther b => Sys2Proof.Machine.execCsumOther b s
  | .idle => Sys2Proof.Machine.execIdle s
  | .reset => Sys2Proof.Machine.execReset s
  | .decShort p v => Sys2Proof.Machine.execDecShort p v s
  | .decDlen p v => Sys2Proof.Machine.execDecDlen p v s
  | .decBadsum p v => Sys2Proof.Machine.execDecBadsum p v s
  | .wifiSettings p v => Sys2Proof.Machine.execWifiSettings p v s
  | .wifiSettingsOverrun p v => Sys2Proof.Machine.execWifiSettingsOverrun p v s
  | .getCurrentState p v => Sys2Proof.Machine.execGetCurrentState p v s
  | .getDeviceInfo p v => Sys2Proof.Machine.execGetDeviceInfo p v s
  | .getWifiNetworks p v => Sys2Proof.Machine.execGetWifiNetworks p v s
  | .otherCode p v => Sys2Proof.Machine.execOtherCode p v s

end Sys2Proof.Machine
end

