-- ==== Sys2Proof/Machine/Placement.lean ====
section
/-! DEFINITION. Placing an instruction where the next step fetches it (log entry 7). -/

namespace Sys2Proof.Machine

/-- Write the bytes one after another from an address. -/
def Memory.writeAll (m : Memory) (a : Nat) (bs : List Byte) : Memory :=
  match bs with
  | [] => m
  | b :: rest => Memory.writeAll (m.write a b) (a + 1) rest

/-- The header bytes below position `pos`: what a receiver at `pos` (at most 8) has accepted (R33). -/
def headerBelow (c : Config) (pos : Nat) : List Byte :=
  (Config.preamble ++ [c.version, Config.typeRpcCommand]).take pos

/-- `s` about to be presented an encoded instruction. A byte of the header needs the cursor at its position, with the header
before it accepted; other stimuli need nothing else. -/
def placed (s : State) (e : Encoded) : State :=
  match e.stim with
  | .ports false (some _) =>
    { s with
      pos := e.ctx.pos
      buf := s.buf.writeAll 0 (headerBelow s.cfg e.ctx.pos)
      inq := e.stim :: s.inq }
  | .ports false none => { s with inq := e.stim :: s.inq }
  | .ports true _ => { s with inq := e.stim :: s.inq }
  | .decode _ _ => { s with inq := e.stim :: s.inq }

end Sys2Proof.Machine
end

