-- ==== Sys2Proof/Machine/Step.lean ====
section
/-! DEFINITION. One step of the machine. -/

namespace Sys2Proof.Machine

/-- One step (R100, R51): take what the environment presents and run the instruction it selects. A configuration that is
ill-formed is refused (R7; log entry 14). -/
def step (s : State) : Host.Outcome State Fault Refusal :=
  if s.cfg.wf then
    match fetch s with
    | .instr i => exec i s.consume
    | .reject r => .fault (faultOf r)
  else .refused .illFormedConfig

/-- `s` with a word of the opcode table placed where the next step fetches it. -/
def State.withFetchWord (s : State) (nbits w : Nat) : State := placed s (placeWord s.cfg nbits w)

end Sys2Proof.Machine
end

