-- ==== Sys2Proof/Machine/Flags.lean ====
section
/-! DEFINITION. The block has no flags (R20); its only status is its outputs. This file gives the event port's encoding (R206). -/

namespace Sys2Proof.Machine

/-- The lines of the event port (R206). DESIGN CHOICE (log entry 16), safe: a line that is not meaningful beside the event is not
driven (`none`), and of the byte lines `ssid[0..255)` and `pw[0..255)` only the bytes below `ssid_len` and `pw_len` are driven, so
`ssid` and `pw` hold the strings' own bytes and nothing beyond them. -/
structure EventPort where
  evKind : BitVec 2
  err : Option Byte
  cmdTag : Option (BitVec 3)
  cmdCode : Option Byte
  ssidLen : Option Byte
  ssid : Option (List Byte)
  pwLen : Option Byte
  pw : Option (List Byte)
  deriving DecidableEq, Repr

/-- The numbers of the error values (R206). -/
def errNumber (c : Config) (e : ErrorCode) : Byte :=
  match e with
  | .none => 0x00#8
  | .invalidRpc => 0x01#8
  | .unknownRpc => 0x02#8
  | .unableToConnect => 0x03#8
  | .badChecksum => c.badChecksumCode

/-- `cmd_tag` (R206). -/
def cmdTagOf (c : Command) : BitVec 3 :=
  match c with
  | .getCurrentState => 0#3
  | .wifiSettings _ _ => 1#3
  | .getDeviceInfo => 2#3
  | .getWifiNetworks => 3#3
  | .unknown => 4#3
  | .badChecksum => 5#3
  | .other _ => 6#3

/-- The strings of a command event: meaningful for `cmd_tag = 1` only (R206). -/
def stringsOf (c : Command) : Option (List Byte × List Byte) :=
  match c with
  | .getCurrentState => none
  | .wifiSettings ssid pw => some (ssid, pw)
  | .getDeviceInfo => none
  | .getWifiNetworks => none
  | .unknown => none
  | .badChecksum => none
  | .other _ => none

/-- The event port's lines for an event whose raw command code is `code` (R206). DESIGN CHOICE (log entry 16), safe: in a
`WifiSettings` event the bytes at and beyond `ssid_len` and `pw_len`, of which R206 says nothing, are not driven. -/
def encodeEvent (c : Config) (ev : Event) (code : Option Byte) : EventPort :=
  match ev with
  | .none => ⟨0b00#2, none, none, none, none, none, none, none⟩
  | .err e => ⟨0b01#2, some (errNumber c e), none, none, none, none, none, none⟩
  | .cmd cm =>
    { evKind := 0b10#2
      err := none
      cmdTag := some (cmdTagOf cm)
      cmdCode := code
      ssidLen := (stringsOf cm).map fun x => BitVec.ofNat 8 x.1.length
      ssid := (stringsOf cm).map fun x => x.1
      pwLen := (stringsOf cm).map fun x => BitVec.ofNat 8 x.2.length
      pw := (stringsOf cm).map fun x => x.2 }

/-- The event port after a step. -/
def State.eventPort (s : State) : EventPort := encodeEvent s.cfg s.ev s.cmdCode

end Sys2Proof.Machine
end

