-- ==== Sys2Proof/Machine/Listing.lean ====
section
/-! DEFINITION. The two listings that the spec calls normative, R140 and R100, written as they stand and apart from the meanings, for
statements that hold the machine against them. The step does not use this file. -/

namespace Sys2Proof.Machine

/-- `p[i]` of a listing. The listings read in range only; the byte answered outside is never used. -/
def byteAt (p : List Byte) (i : Nat) : Byte := p.getD i 0#8

/-- `p[i .. j)` of a listing. -/
def slice (p : List Byte) (i j : Nat) : List Byte := (p.drop i).take (j - i)

/-- The listing of `DECODE` (R140). -/
def decodeListing (c : Config) (p : List Byte) (verify : Bool) : Verdict :=
  let n : Int := p.length
  let v : Int := if verify then 1 else 0
  if n < 2 then .command .unknown
  else
    let code := byteAt p 0
    let d : Int := (byteAt p 1).toNat
    if d ≠ n - 2 - v then .command .unknown
    else if verify ∧ byteAt p (p.length - 1) ≠ sum8 (slice p 0 (p.length - 1)) then .command .badChecksum
    else if code = c.codeWifiSettings then
      let e : Int := 2 + d
      if 3 > e then .malformed
      else
        let s := (byteAt p 2).toNat
        if (3 + s + 1 : Int) > e then .malformed
        else
          let pw := (byteAt p (3 + s)).toNat
          if (4 + s + pw : Int) > e then .malformed
          else .command (.wifiSettings (slice p 3 (3 + s)) (slice p (4 + s) (4 + s + pw)))
    else if code = c.codeGetCurrentState then .command .getCurrentState
    else if code = c.codeGetDeviceInfo then .command .getDeviceInfo
    else if code = c.wifiNetworksCode then .command .getWifiNetworks
    else .command (.other code)

/-- What the listing of the step answers: the new `pos` and `buf` with the outputs, or a fault. -/
inductive ListingOutcome where
  | done (pos : Nat) (buf : Memory) (acc : Acc) (ev : Event)
  | fault (f : Fault)
  deriving DecidableEq, Repr

/-- `ADVANCE(b)` of the listing, with `OVERFLOW` (R115, R117). -/
def advanceListing (s : State) (b : Byte) : ListingOutcome :=
  if s.pos ≥ s.cfg.bufCap then .done 0 s.buf .reject .none
  else .done (s.pos + 1) (s.buf.write s.pos b) .accept .none

/-- `CSUM(b)` of the listing. -/
def checksumListing (s : State) (b : Byte) (l : Nat) : ListingOutcome :=
  match bufReadRange s 0 s.pos, bufRead s 7, bufReadRange s 9 l with
  | some body, some ftype, some p =>
    if b ≠ sum8 body then .done 0 s.buf .reject (.err .invalidRpc)
    else if ftype = Config.typeRpcCommand then
      match decodeListing s.cfg p false with
      | .malformed => .done 0 s.buf .accept (.err .invalidRpc)
      | .command r => .done 0 s.buf .accept (.cmd r)
    else .done 0 s.buf .accept .none
  | _, _, _ => .fault .undefinedRead

/-- `FEED(b)` of the listing. -/
def feedListing (s : State) (b : Byte) : ListingOutcome :=
  if s.pos ≤ 5 then
    if some b = Config.preamble[s.pos]? then advanceListing s b else .done 0 s.buf .reject .none
  else if s.pos = 6 then
    if b = s.cfg.version then advanceListing s b else .done 0 s.buf .reject .none
  else if s.pos = 7 ∨ s.pos = 8 then advanceListing s b
  else
    match bufRead s 8 with
    | none => .fault .undefinedRead
    | some l =>
      if s.pos ≤ 8 + l.toNat then advanceListing s b
      else if s.pos = 9 + l.toNat then checksumListing s b l.toNat
      else .fault .invariantBroken

/-- The listing of the step (R100). -/
def stepListing (s : State) (rst : Bool) (inp : Option Byte) : ListingOutcome :=
  if rst then .done 0 [] .none .none
  else
    match inp with
    | none => .done s.pos s.buf .none .none
    | some b => feedListing s b

end Sys2Proof.Machine
end

