-- ==== Sys2Proof/Machine/Run.lean ====
section
/-! DEFINITION. A run and what is observed of it (R249). -/

namespace Sys2Proof.Machine

/-- The observation of `n` steps (R249): the outputs `(acc, ev)` of each step in order, and the state at the end; `none` where a
step stops. -/
def observe (n : Nat) (s : State) : Option (List (Acc × Event) × State) :=
  match n with
  | 0 => some ([], s)
  | n + 1 =>
    match step s with
    | .next t => (observe n t).map fun r => ((t.acc, t.ev) :: r.1, r.2)
    | .fault _ => none
    | .refused _ => none

/-- The defined part of the buffer, `buf[0..pos)` (R249). -/
def State.visible (s : State) : List (Option Byte) := (List.range s.pos).map (bufRead s)

/-- A byte stream as the environment presents it, one byte a step (R25). -/
def feeds (bs : List Byte) : List Stimulus := bs.map Stimulus.feed

end Sys2Proof.Machine
end

