-- ==== Sys2Proof/Safety.lean ====
section
/-! DEFINITION. The invariant of a safe run, and the terms the claims are stated in. -/

namespace Sys2Proof.Machine

/-- What every reachable state satisfies: a well-formed configuration (R7), a buffer in canonical form inside its capacity (R22,
R45), and the invariants INV1 to INV4 (R33). -/
def State.Inv (s : State) : Prop :=
  s.cfg.wf = true ∧ s.buf.wf = true ∧ s.buf.within s.cfg.bufCap = true ∧ s.assertions = true

/-- Nothing of the configuration, the environment's stimuli or the free values' counter changes. -/
def SameRest (s t : State) : Prop := t.cfg = s.cfg ∧ t.inq = s.inq ∧ t.free = s.free

/-- Every byte of the buffer reads as before. -/
def SameBuffer (s t : State) : Prop := ∀ a, t.buf.read a = s.buf.read a

/-- The outputs of a step. -/
def Outputs (t : State) (acc : Acc) (ev : Event) (cmdCode : Option Byte) (dec : Option Verdict) : Prop :=
  t.acc = acc ∧ t.ev = ev ∧ t.cmdCode = cmdCode ∧ t.dec = dec

/-- `t` is `s` after `ADVANCE(b)` (R115): `b` stored at the cursor and nowhere else, the cursor one further, `ACCEPT` and no
event, all else as before. -/
def Accepted (s : State) (b : Byte) (t : State) : Prop :=
  t.pos = s.pos + 1 ∧ t.buf.read s.pos = some b ∧ (∀ a, a ≠ s.pos → t.buf.read a = s.buf.read a)
    ∧ Outputs t .accept .none none none ∧ SameRest s t

/-- `t` is `s` after a silent reject (R116, R201): the cursor at 0, the buffer and all else as before, `REJECT` and no event. -/
def SilentlyRejected (s t : State) : Prop :=
  t.pos = 0 ∧ SameBuffer s t ∧ Outputs t .reject .none none none ∧ SameRest s t

/-- The cursor of `s` is at the checksum position `9 + L` and `body` is `buf[0..pos)` (R112). -/
def AtChecksum (s : State) (body : List Byte) : Prop :=
  bufReadRange s 0 s.pos = some body ∧ ∃ l : Byte, body[8]? = some l ∧ s.pos = 9 + l.toNat

/-- `b` is the right checksum byte of an rpc-command frame whose payload is `p` (R113). -/
def CompletesRpc (s : State) (b : Byte) (p : List Byte) : Prop :=
  ∃ body, AtChecksum s body ∧ body[7]? = some Config.typeRpcCommand ∧ b = sum8 body ∧ p = body.drop 9

/-- `t` is `s` after a decoder row answered `r` (R154): the answer on `dec`, no event, all else as before. -/
def Answered (s : State) (r : Verdict) (t : State) : Prop :=
  t.pos = s.pos ∧ SameBuffer s t ∧ Outputs t .none .none none (some r) ∧ SameRest s t

/-- A payload that passes the framing checks of R142 and R143: code, `D`, `D` data bytes and, in verify mode, the payload
checksum. -/
def framedPayload (verify : Bool) (code : Byte) (data : List Byte) : List Byte :=
  if verify then rpcPayload code data ++ [sum8 (rpcPayload code data)] else rpcPayload code data

/-- The event of a valid frame (R113, R114): the decoder's answer by the listing of R140 for an rpc-command, none for any other
type. -/
def frameEvent (c : Config) (ftype : Byte) (p : List Byte) : Event :=
  if ftype = Config.typeRpcCommand then
    match decodeListing c p false with
    | .malformed => .err .invalidRpc
    | .command r => .cmd r
  else .none

/-- The step of `s` does what a listing's outcome says, and takes one stimulus, leaving `rest` (R100). -/
def StepIs (s : State) (rest : List Stimulus) (o : ListingOutcome) : Prop :=
  match o with
  | .done pos buf acc ev =>
    ∃ t, step s = .next t ∧ t.pos = pos ∧ t.buf = buf ∧ t.acc = acc ∧ t.ev = ev ∧ t.cfg = s.cfg ∧ t.inq = rest
  | .fault f => step s = .fault f

/-- Two runs' observations are the same: both stop, or both go on with the same outputs and end in states that agree but for
stale bytes (R122). -/
def SameObservation (x y : Option (List (Acc × Event) × State)) (agree : State → State → Prop) : Prop :=
  match x, y with
  | some (o, s), some (o', t) => o = o' ∧ agree s t
  | none, none => True
  | some _, none => False
  | none, some _ => False

/-- Two states that agree but for what stands in the buffer at and beyond the cursor (R34). -/
def AgreeBelowCursor (s t : State) : Prop :=
  t.cfg = s.cfg ∧ t.pos = s.pos ∧ t.inq = s.inq ∧ t.free = s.free ∧ ∀ a, a < s.pos → t.buf.read a = s.buf.read a

/-- The preamble rows of the opcode table: each row's instruction, its position and the byte it accepts (R102 to R107). -/
def preambleRows : List ((Byte → Instr) × Nat × Byte) :=
  [(.pre0, 0, 0x49#8), (.pre1, 1, 0x4D#8), (.pre2, 2, 0x50#8), (.pre3, 3, 0x52#8), (.pre4, 4, 0x4F#8), (.pre5, 5, 0x56#8)]

/-- The command rows that carry no fields: each row's instruction, its code and its command (R148 to R150). -/
def fieldlessRows (c : Config) : List ((List Byte → Bool → Instr) × Byte × Command) :=
  [(.getCurrentState, c.codeGetCurrentState, .getCurrentState), (.getDeviceInfo, c.codeGetDeviceInfo, .getDeviceInfo),
    (.getWifiNetworks, c.wifiNetworksCode, .getWifiNetworks)]

/-- The data of a `WifiSettings` payload, with what follows the password (R76). -/
def wifiData (ssid password trailing : List Byte) : List Byte :=
  BitVec.ofNat 8 ssid.length :: ssid ++ BitVec.ofNat 8 password.length :: password ++ trailing

/-- The lengths in `WifiSettings` data overrun it (R146): there is no `S` byte; or the SSID or the `P` byte after it overruns; or
the password does. -/
def Overruns (data : List Byte) : Prop :=
  data = [] ∨ (∃ s rest, data = s :: rest ∧ rest.length < s.toNat + 1)
    ∨ ∃ s ssid pw rest, data = s :: ssid ++ pw :: rest ∧ ssid.length = s.toNat ∧ rest.length < pw.toNat

end Sys2Proof.Machine
end

