-- ==== Sys2Proof/Certificates/Slice0/Obligations.lean ====
section
/-! DEFINITION. The statements for the provers. -/

open Sys2Proof Sys2Proof.Machine

/-! ### Reset and configuration -/

/-- The state and outputs after reset (10_state.md section 6): cursor 0, every buffer entry undefined, both outputs NONE. The
cursor's value is the spec's decision D17. -/
def Obligations.ResetLeavesCursorZeroBufferUndefined : Prop :=
  State.reset.pos = 0 ∧ (∀ a, State.reset.buf.read a = none) ∧ State.reset.acc = .none ∧ State.reset.ev = .none

/-- The reset state meets the invariant (10_state.md section 7). -/
def Obligations.ResetMeetsTheInvariant : Prop := State.reset.Inv

/-- `RESET` from any state (70_reset_and_hazards.md section 1; the spec's decision D17): as a meaning, the block is as after
power-on, with the configuration, the environment's stimuli and the model's counter kept; as a step, `rst` has priority over a
byte on `in`, which is lost. -/
def Obligations.ResetInstructionRestoresTheResetState : Prop :=
  (∀ s : State, exec .reset s = .next { State.reset with cfg := s.cfg, inq := s.inq, free := s.free })
    ∧ ∀ (s : State) (inp : Option Byte) (rest : List Stimulus), s.cfg.wf = true → s.inq = .ports true inp :: rest →
        step s = .next { State.reset with cfg := s.cfg, inq := rest, free := s.free }

/-- The model refuses a configuration whose four command codes are not pairwise distinct or whose buffer is smaller than 9
bytes, and no other (00_scope.md section 4; the spec's decision D5). -/
def Obligations.OnlyIllFormedConfigurationsAreRefused : Prop :=
  ∀ s : State,
    step s = .refused .illFormedConfig ↔
      (s.cfg.bufCap < 9 ∨ s.cfg.codeWifiSettings = s.cfg.codeGetCurrentState
        ∨ s.cfg.codeWifiSettings = s.cfg.codeGetDeviceInfo ∨ s.cfg.codeGetCurrentState = s.cfg.codeGetDeviceInfo
        ∨ s.cfg.wifiNetworksCode = s.cfg.codeWifiSettings ∨ s.cfg.wifiNetworksCode = s.cfg.codeGetCurrentState
        ∨ s.cfg.wifiNetworksCode = s.cfg.codeGetDeviceInfo)

/-- No step changes the configuration, and every step takes exactly one stimulus (10_state.md section 4, 20_memory.md section 2;
the spec's decisions D1 and D6; that the stimuli stand in a list is the model's choice, log entry 7). -/
def Obligations.EveryStepKeepsConfigurationAndTakesOneStimulus : Prop :=
  ∀ s t : State, step s = .next t → t.cfg = s.cfg ∧ t.inq = s.inq.tail

/-! ### Decoding and encoding -/

/-- Words written out from the opcode table and 30_encoding.md: bytes at their positions, and payloads, decode to the
instruction they stand for. -/
def Obligations.WrittenWordsDecode : Prop :=
  decode Config.default ⟨.header 0, .feed 0x49#8⟩ = .instr (.pre0 0x49#8)
    ∧ decode Config.default ⟨.header 4, .feed 0x4F#8⟩ = .instr (.pre4 0x4F#8)
    ∧ decode Config.default ⟨.header 6, .feed 0x01#8⟩ = .instr (.ver 0x01#8)
    ∧ decode Config.default ⟨⟨11, some 0x02#8, some 0x03#8, some 0xE7#8⟩, .feed 0xE7#8⟩ = .instr (.csumRpc 0xE7#8)
    ∧ decode Config.default ⟨.header 0, .decode [0x04#8, 0x00#8] false⟩ = .instr (.getDeviceInfo [0x04#8, 0x00#8] false)
    ∧ decodeTableWord 8 0x56 = some (.pre5 0x56#8)

/-- Decoding and encoding agree (30_encoding.md), for every instruction and every operand: the encoding of a well-formed
instruction decodes to it; and whatever decodes, in whatever context, gives a well-formed instruction whose encoding presents
the same byte or payload (for `RESET`, whatever is on `in`), so that no bit of an operand is dropped or changed. -/
def Obligations.DecodeAndEncodeAgree : Prop :=
  ∀ (c : Config) (i : Instr),
    (i.wf c = true → decode c (encode i) = .instr i)
      ∧ ∀ e : Encoded, decode c e = .instr i →
          i.wf c = true ∧ (e.stim = (encode i).stim ∨ i = .reset ∧ ∃ inp, e.stim = .ports true inp)

/-- The position classes of R68: in a state that meets the invariants each class is selected exactly where its row says, and
every byte has a class. -/
def Obligations.ByteClassesAreExclusiveAndCover : Prop :=
  ∀ (s : State) (b : Byte), s.assertions = true →
    (decodeByte s.context b = .instr (.pre0 b) ↔ s.pos = 0)
      ∧ (decodeByte s.context b = .instr (.pre1 b) ↔ s.pos = 1)
      ∧ (decodeByte s.context b = .instr (.pre2 b) ↔ s.pos = 2)
      ∧ (decodeByte s.context b = .instr (.pre3 b) ↔ s.pos = 3)
      ∧ (decodeByte s.context b = .instr (.pre4 b) ↔ s.pos = 4)
      ∧ (decodeByte s.context b = .instr (.pre5 b) ↔ s.pos = 5)
      ∧ (decodeByte s.context b = .instr (.ver b) ↔ s.pos = 6)
      ∧ (decodeByte s.context b = .instr (.typeByte b) ↔ s.pos = 7)
      ∧ (decodeByte s.context b = .instr (.lenByte b) ↔ s.pos = 8)
      ∧ (decodeByte s.context b = .instr (.pay b) ↔ 9 ≤ s.pos ∧ ∃ l, bufRead s 8 = some l ∧ s.pos ≤ 8 + l.toNat)
      ∧ (decodeByte s.context b = .instr (.csumBad b) ↔ ∃ body, AtChecksum s body ∧ b ≠ sum8 body)
      ∧ (decodeByte s.context b = .instr (.csumRpc b) ↔
          ∃ body, AtChecksum s body ∧ b = sum8 body ∧ body[7]? = some 0x03#8)
      ∧ (decodeByte s.context b = .instr (.csumOther b) ↔
          ∃ body, AtChecksum s body ∧ b = sum8 body ∧ body[7]? ≠ some 0x03#8)
      ∧ ∃ i : Instr, decodeByte s.context b = .instr i ∧
          i ∈ [Instr.pre0 b, .pre1 b, .pre2 b, .pre3 b, .pre4 b, .pre5 b, .ver b, .typeByte b, .lenByte b, .pay b, .csumBad b,
            .csumRpc b, .csumOther b]

/-- What a step runs: the instruction that the decoder reads from the stimulus at the head of the list (for a byte, in a state
that meets the invariants), on the state with the stimulus taken; with no stimulus left, `IDLE` (log entry 7). -/
def Obligations.StepRunsTheDecodedInstruction : Prop :=
  (∀ (s : State) (x : Stimulus) (rest : List Stimulus) (i : Instr), s.cfg.wf = true → s.inq = x :: rest →
      ((∃ b, x = .feed b) → s.assertions = true) → decode s.cfg ⟨s.context, x⟩ = .instr i →
      step s = exec i { s with inq := rest })
    ∧ ∀ s : State, s.cfg.wf = true → s.inq = [] → step s = exec .idle s

/-- Frames and their length (30_encoding.md sections 1 and 5): `10 + L` bytes, the last of them the sum of all before it, which is
`0xDD + VERSION + TYPE + L` and the payload, modulo 256 (40_frame_receiver.md section 8). -/
def Obligations.FrameLengthAndChecksumFormula : Prop :=
  ∀ (version ftype : Byte) (p : List Byte), p.length ≤ 255 →
    (frame version ftype p).length = 10 + p.length
      ∧ (frame version ftype p)[9 + p.length]? = some (sum8 ((frame version ftype p).take (9 + p.length)))
      ∧ (sum8 ((frame version ftype p).take (9 + p.length))).toNat
          = (0xDD + version.toNat + ftype.toNat + p.length + (p.map BitVec.toNat).sum) % 256

/-- The payload built for an SSID and a password decodes to that SSID and that password (30_encoding.md sections 3 and 6,
41_command_decoder.md section 3). -/
def Obligations.WifiPayloadDecodesToItsStrings : Prop :=
  ∀ (c : Config) (ssid pw : List Byte), ssid.length + pw.length ≤ 251 →
    decodeCommand c (wifiPayload c ssid pw) false = .command (.wifiSettings ssid pw)

/-! ### Preamble, version, type, length, payload -/

/-- R102 to R107: at positions 0 to 5 the preamble character is stored and the cursor advances; any other byte is rejected
silently, discarded, and the cursor returns to 0. -/
def Obligations.PreamblePositionsAdvanceOrReject : Prop :=
  ∀ row ∈ preambleRows, ∀ (s : State) (b : Byte), s.cfg.wf = true → s.pos = row.2.1 →
    (b = row.2.2 → ∃ t, exec (row.1 b) s = .next t ∧ Accepted s b t)
      ∧ (b ≠ row.2.2 → ∃ t, exec (row.1 b) s = .next t ∧ SilentlyRejected s t)

/-- R108: at position 6 the one supported version is accepted, any other byte rejected silently. -/
def Obligations.VersionPositionAcceptsOnlyVersion : Prop :=
  ∀ (s : State) (b : Byte), s.cfg.wf = true → s.pos = 6 →
    (b = s.cfg.version → ∃ t, exec (.ver b) s = .next t ∧ Accepted s b t)
      ∧ (b ≠ s.cfg.version → ∃ t, exec (.ver b) s = .next t ∧ SilentlyRejected s t)

/-- R109, R110: at positions 7 and 8 every byte is accepted; the byte at 8 is `L` from the next step on. -/
def Obligations.TypeAndLengthPositionsAcceptEveryByte : Prop :=
  ∀ (s : State) (b : Byte), s.cfg.wf = true →
    (s.pos = 7 → ∃ t, exec (.typeByte b) s = .next t ∧ Accepted s b t)
      ∧ (s.pos = 8 → ∃ t, exec (.lenByte b) s = .next t ∧ Accepted s b t ∧ bufRead t 8 = some b)

/-- Payload positions (40_frame_receiver.md sections 5 and 7): every byte is accepted while the buffer has room; at its end the
byte overflows, a silent reject (the spec's decision D2). -/
def Obligations.PayloadPositionsAcceptOrOverflow : Prop :=
  ∀ (s : State) (b l : Byte), 9 ≤ s.pos → bufRead s 8 = some l → s.pos ≤ 8 + l.toNat →
    (s.pos < s.cfg.bufCap → ∃ t, exec (.pay b) s = .next t ∧ Accepted s b t)
      ∧ (s.cfg.bufCap ≤ s.pos → ∃ t, exec (.pay b) s = .next t ∧ SilentlyRejected s t)

/-- With room for 264 bytes no byte ever overflows (00_scope.md section 4): in a state that meets the invariant, a byte before the
checksum position, accepted by its position's rule, is stored. -/
def Obligations.NoOverflowWithCapacity264 : Prop :=
  ∀ (s : State) (b : Byte) (rest : List Stimulus), s.Inv → 264 ≤ s.cfg.bufCap → s.inq = .feed b :: rest → 7 ≤ s.pos →
    (∀ l, bufRead s 8 = some l → s.pos ≤ 8 + l.toNat) → ∃ t, step s = .next t ∧ Accepted { s with inq := rest } b t

/-- The rejected byte is not taken as the start of a new frame (R116's consequence in 40_frame_receiver.md section 3): from
position 1, `I M P R O V` is rejected byte by byte and the cursor ends at 0. -/
def Obligations.SecondPreambleStartIsNotResynchronised : Prop :=
  ∀ (s : State) (rest : List Stimulus), s.Inv → s.pos = 1 → s.inq = feeds Config.preamble ++ rest →
    ∃ u, observe 6 s = some (List.replicate 6 (.reject, .none), u) ∧ u.pos = 0 ∧ u.inq = rest

/-! ### Checksum positions -/

/-- R118: the truncated sum of bytes is their sum as integers, modulo 256, and 0 for no bytes; at the checksum position it is taken
over every byte of the frame so far, at least the 9 header bytes, and a byte is a wrong checksum exactly when it differs. -/
def Obligations.Sum8IsTheSumModulo256 : Prop :=
  (∀ xs : List Byte, (sum8 xs).toNat = (xs.map BitVec.toNat).sum % 256) ∧ sum8 [] = 0x00#8
    ∧ ∀ (s : State) (b : Byte) (body : List Byte), AtChecksum s body →
        body.length = s.pos ∧ 9 ≤ body.length ∧ (∀ i, i < s.pos → body[i]? = bufRead s i)
          ∧ (decodeByte s.context b = .instr (.csumBad b) ↔ b ≠ sum8 body)

/-- R112, R202: a wrong checksum byte, for every frame type, gives `REJECT` and `ERR(InvalidRpc)`, the cursor returns to 0, the
byte is not stored, the buffer is unchanged and every entry is now beyond the cursor. -/
def Obligations.WrongChecksumSignalsInvalidRpc : Prop :=
  ∀ (s : State) (b : Byte) (body : List Byte), AtChecksum s body → b ≠ sum8 body →
    ∃ t, exec (.csumBad b) s = .next t ∧ t.pos = 0 ∧ SameBuffer s t ∧ (∀ i, bufRead t i = none)
      ∧ Outputs t .reject (.err .invalidRpc) none none ∧ SameRest s t

/-- A right checksum byte of an rpc-command frame (40_frame_receiver.md section 6): the cursor returns to 0, the byte is not stored,
and the event is the decoder's answer by the listing of 41_command_decoder.md section 1, `ERR(InvalidRpc)` for a malformed command. That the output is `ACCEPT`
is the spec's decision D7. -/
def Obligations.ValidRpcFrameEmitsTheDecodedCommand : Prop :=
  ∀ (s : State) (b : Byte) (p : List Byte), CompletesRpc s b p →
    ∃ t, exec (.csumRpc b) s = .next t ∧ t.pos = 0 ∧ SameBuffer s t ∧ t.acc = .accept
      ∧ t.ev = frameEvent s.cfg Config.typeRpcCommand p ∧ t.dec = some (decodeListing s.cfg p false)
      ∧ t.cfg = s.cfg ∧ t.inq = s.inq ∧ (p ≠ [] → t.free = s.free)

/-- A right checksum byte of a frame of any other type (40_frame_receiver.md section 6; the spec's decisions D7 and D18): the cursor
returns to 0 and there is no event. -/
def Obligations.ValidOtherFrameCompletesSilently : Prop :=
  ∀ (s : State) (body : List Byte), AtChecksum s body → body[7]? ≠ some Config.typeRpcCommand →
    ∃ t, exec (.csumOther (sum8 body)) s = .next t ∧ t.pos = 0 ∧ SameBuffer s t ∧ Outputs t .accept .none none none
      ∧ SameRest s t

/-- R101: `IDLE` changes nothing, and both outputs are NONE. -/
def Obligations.IdleLeavesCursorAndBuffer : Prop :=
  ∀ s : State, ∃ t, exec .idle s = .next t ∧ t.pos = s.pos ∧ t.buf = s.buf ∧ Outputs t .none .none none none ∧ SameRest s t

/-! ### The command decoder -/

/-- A payload of fewer than two bytes (41_command_decoder.md section 2; the spec's decision D9) is `Unknown`, and through the
receiver the command event `Unknown`. That a call of the decoder is a step is the model's choice (log entry 9). -/
def Obligations.ShortPayloadIsUnknown : Prop :=
  ∀ (s : State) (p : List Byte), p.length < 2 →
    (∀ verify, ∃ t, exec (.decShort p verify) s = .next t ∧ Answered s (.command .unknown) t)
      ∧ ∀ b, CompletesRpc s b p → ∃ t, exec (.csumRpc b) s = .next t ∧ t.ev = .cmd .unknown

/-- R142: a declared length other than `n - 2 - v`, compared as integers, is `Unknown` for every command code, and through the
receiver the command event `Unknown`. -/
def Obligations.DeclaredLengthMismatchIsUnknown : Prop :=
  ∀ (s : State) (code d : Byte) (rest : List Byte),
    (∀ verify : Bool, (d.toNat : Int) ≠ ((code :: d :: rest).length : Int) - 2 - (if verify then 1 else 0) →
        ∃ t, exec (.decDlen (code :: d :: rest) verify) s = .next t ∧ Answered s (.command .unknown) t)
      ∧ ((d.toNat : Int) ≠ ((code :: d :: rest).length : Int) - 2 →
        ∀ b, CompletesRpc s b (code :: d :: rest) → ∃ t, exec (.csumRpc b) s = .next t ∧ t.ev = .cmd .unknown)

/-- R143: in verify mode, after the length check, a last byte other than the sum of the bytes before it is `BadChecksum`, with
no event; with the right last byte the answer is the one that the code and data give. -/
def Obligations.WrongPayloadChecksumIsBadChecksum : Prop :=
  ∀ (s : State) (code x : Byte) (data : List Byte), data.length ≤ 255 →
    (x ≠ sum8 (rpcPayload code data) →
        ∃ t, exec (.decBadsum (rpcPayload code data ++ [x]) true) s = .next t ∧ Answered s (.command .badChecksum) t)
      ∧ decodeCommand s.cfg (rpcPayload code data ++ [sum8 (rpcPayload code data)]) true
          = decodeCommand s.cfg (rpcPayload code data) false

/-- R145: a `WifiSettings` payload gives its SSID and its password, raw, each of the length its length byte states, and through
the receiver the command event. (Data after the password: `WifiSettingsIgnoresTrailingData`.) -/
def Obligations.WifiSettingsGivesBothStrings : Prop :=
  ∀ (s : State) (ssid pw : List Byte), ssid.length + pw.length + 2 ≤ 255 →
    (∀ verify, ∃ t,
        exec (.wifiSettings (framedPayload verify s.cfg.codeWifiSettings (wifiData ssid pw [])) verify) s = .next t
          ∧ Answered s (.command (.wifiSettings ssid pw)) t)
      ∧ ∀ b, CompletesRpc s b (framedPayload false s.cfg.codeWifiSettings (wifiData ssid pw [])) →
          ∃ t, exec (.csumRpc b) s = .next t ∧ t.ev = .cmd (.wifiSettings ssid pw)

/-- Data after the password is ignored (41_command_decoder.md section 3; the spec's decision D12). -/
def Obligations.WifiSettingsIgnoresTrailingData : Prop :=
  ∀ (s : State) (ssid pw trailing : List Byte), ssid.length + pw.length + trailing.length + 2 ≤ 255 →
    (∀ verify, ∃ t,
        exec (.wifiSettings (framedPayload verify s.cfg.codeWifiSettings (wifiData ssid pw trailing)) verify) s = .next t
          ∧ Answered s (.command (.wifiSettings ssid pw)) t)
      ∧ ∀ b, CompletesRpc s b (framedPayload false s.cfg.codeWifiSettings (wifiData ssid pw trailing)) →
          ∃ t, exec (.csumRpc b) s = .next t ∧ t.ev = .cmd (.wifiSettings ssid pw)

/-- `WifiSettings` lengths that overrun the declared data are malformed, and through the receiver the error event `InvalidRpc` with
no command event (41_command_decoder.md section 3; the spec's decision D11). -/
def Obligations.WifiSettingsOverrunIsInvalidRpc : Prop :=
  ∀ (s : State) (data : List Byte), data.length ≤ 255 → Overruns data →
    (∀ verify, ∃ t, exec (.wifiSettingsOverrun (framedPayload verify s.cfg.codeWifiSettings data) verify) s = .next t
        ∧ Answered s .malformed t)
      ∧ ∀ b, CompletesRpc s b (framedPayload false s.cfg.codeWifiSettings data) →
          ∃ t, exec (.csumRpc b) s = .next t ∧ t.ev = .err .invalidRpc

/-- The three commands without fields, whatever data follows (41_command_decoder.md section 3; that data is allowed and ignored is the spec's
decision D13), and through the receiver their command events. -/
def Obligations.FieldlessCommandsIgnoreData : Prop :=
  ∀ s : State, s.cfg.wf = true → ∀ row ∈ fieldlessRows s.cfg, ∀ data : List Byte, data.length ≤ 255 →
    (∀ verify, ∃ t, exec (row.1 (framedPayload verify row.2.1 data) verify) s = .next t ∧ Answered s (.command row.2.2) t)
      ∧ ∀ b, CompletesRpc s b (framedPayload false row.2.1 data) →
          ∃ t, exec (.csumRpc b) s = .next t ∧ t.ev = .cmd row.2.2

/-- R151: a code byte that is none of the four gives `Other` with that byte, and through the receiver the command event. -/
def Obligations.UnrecognisedCodePassesThrough : Prop :=
  ∀ (s : State) (code : Byte) (data : List Byte), data.length ≤ 255 → code ≠ s.cfg.codeWifiSettings →
    code ≠ s.cfg.codeGetCurrentState → code ≠ s.cfg.codeGetDeviceInfo → code ≠ s.cfg.wifiNetworksCode →
    (∀ verify, ∃ t, exec (.otherCode (framedPayload verify code data) verify) s = .next t
        ∧ Answered s (.command (.other code)) t)
      ∧ ∀ b, CompletesRpc s b (framedPayload false code data) →
          ∃ t, exec (.csumRpc b) s = .next t ∧ t.ev = .cmd (.other code)

/-- R154: a decoder row, where it runs, writes no state, emits nothing and answers what the payload, `verify` and the four
configured codes alone determine. -/
def Obligations.DecoderRowsHaveNoSideEffect : Prop :=
  ∀ (row : DecoderRow) (p : List Byte) (verify : Bool) (s t : State), exec (row.toInstr p verify) s = .next t →
    t.pos = s.pos ∧ t.buf = s.buf ∧ t.acc = .none ∧ t.ev = .none ∧ SameRest s t
      ∧ ∀ s' : State, s'.cfg.codeWifiSettings = s.cfg.codeWifiSettings → s'.cfg.codeGetCurrentState = s.cfg.codeGetCurrentState →
          s'.cfg.codeGetDeviceInfo = s.cfg.codeGetDeviceInfo → s'.cfg.wifiNetworksCode = s.cfg.wifiNetworksCode →
          ∃ t', exec (row.toInstr p verify) s' = .next t' ∧ t'.dec = t.dec

/-- The decoder built from the rows of the opcode table answers as the listing of 41_command_decoder.md section 1 (the order of
whose checks is the spec's decision D23), for every payload, as a function and as an instruction. -/
def Obligations.DecoderAgreesWithTheListing : Prop :=
  ∀ (p : List Byte) (verify : Bool),
    (∀ c : Config, decodeCommand c p verify = decodeListing c p verify)
      ∧ ∀ s : State, ∃ t, exec ((classify s.cfg p verify).toInstr p verify) s = .next t
          ∧ Answered s (decodeListing s.cfg p verify) t

/-! ### The event port -/

/-- The numbers on the event port (60_exceptions.md section 1; the spec's decisions D14 and D15): kinds, error numbers, command
tags, and the strings of `WifiSettings`. Undriven lines, and that a string's bytes end at its length, are the model's choice (log
entry 16). -/
def Obligations.EventPortLinesFollowTheTables : Prop :=
  ∀ (c : Config) (code : Byte) (ssid pw : List Byte) (x : Byte),
    (encodeEvent c .none none).evKind = 0#2
      ∧ (∀ e, (encodeEvent c (.err e) none).evKind = 1#2)
      ∧ (∀ cm, (encodeEvent c (.cmd cm) (some code)).evKind = 2#2 ∧ (encodeEvent c (.cmd cm) (some code)).cmdCode = some code)
      ∧ (encodeEvent c (.err .none) none).err = some 0x00#8
      ∧ (encodeEvent c (.err .invalidRpc) none).err = some 0x01#8
      ∧ (encodeEvent c (.err .unknownRpc) none).err = some 0x02#8
      ∧ (encodeEvent c (.err .unableToConnect) none).err = some 0x03#8
      ∧ (encodeEvent c (.cmd .getCurrentState) (some code)).cmdTag = some 0#3
      ∧ (encodeEvent c (.cmd (.wifiSettings ssid pw)) (some code)).cmdTag = some 1#3
      ∧ (encodeEvent c (.cmd .getDeviceInfo) (some code)).cmdTag = some 2#3
      ∧ (encodeEvent c (.cmd .getWifiNetworks) (some code)).cmdTag = some 3#3
      ∧ (encodeEvent c (.cmd .unknown) (some code)).cmdTag = some 4#3
      ∧ (encodeEvent c (.cmd .badChecksum) (some code)).cmdTag = some 5#3
      ∧ (encodeEvent c (.cmd (.other x)) (some code)).cmdTag = some 6#3
      ∧ (encodeEvent c (.cmd (.wifiSettings ssid pw)) (some code)).ssidLen = some (BitVec.ofNat 8 ssid.length)
      ∧ (encodeEvent c (.cmd (.wifiSettings ssid pw)) (some code)).ssid = some ssid
      ∧ (encodeEvent c (.cmd (.wifiSettings ssid pw)) (some code)).pwLen = some (BitVec.ofNat 8 pw.length)
      ∧ (encodeEvent c (.cmd (.wifiSettings ssid pw)) (some code)).pw = some pw

/-- The code line of a command event (60_exceptions.md section 1, D15): payload byte 0; for an empty payload, which has none, some
byte, whatever it is (log entry 10); beside an error event the line is not driven (log entry 16). -/
def Obligations.CommandCodeLineIsPayloadByteZero : Prop :=
  ∀ (s t : State) (b : Byte) (p : List Byte), CompletesRpc s b p → exec (.csumRpc b) s = .next t →
    (∀ c, t.ev = .cmd c → ∃ x, t.eventPort.cmdCode = some x ∧ ∀ code rest, p = code :: rest → x = code)
      ∧ ∀ e, t.ev = .err e → t.eventPort.cmdCode = none

/-! ### The parse buffer -/

/-- `BufRead` (20_memory.md section 1; the spec's decision D22): a byte below the cursor is the buffer's entry, at or beyond it
the read is undefined. -/
def Obligations.ReadsAtOrBeyondTheCursorAreUndefined : Prop :=
  ∀ (s : State) (i : Nat), (s.pos ≤ i → bufRead s i = none) ∧ (i < s.pos → bufRead s i = s.buf.read i)

/-- `BufWrite` (20_memory.md section 1): under its precondition the entry holds the byte, every other entry reads as before, the
canonical form is kept, and nothing else changes; outside its precondition it faults (the model's choice, log entry 11). -/
def Obligations.BufferWriteStoresOneByte : Prop :=
  ∀ (s : State) (i : Nat) (b : Byte),
    (i = s.pos → i < s.cfg.bufCap →
        ∃ m : Memory, bufWrite i b s = .next { s with buf := m } ∧ m.read i = some b
          ∧ (∀ a, a ≠ i → m.read a = s.buf.read a) ∧ (s.buf.wf = true → m.wf = true)
          ∧ (s.buf.within s.cfg.bufCap = true → m.within s.cfg.bufCap = true))
      ∧ (i ≠ s.pos ∨ s.cfg.bufCap ≤ i → bufWrite i b s = .fault .writeOutOfPlace)

/-- Where a step stores (10_state.md section 3, 20_memory.md section 1): only the byte that is fed, only at the cursor, only when
it is accepted and the cursor advances; but for `RESET`, every other entry reads as before. -/
def Obligations.StepsStoreOnlyTheAcceptedByteAtTheCursor : Prop :=
  ∀ s t : State, step s = .next t → (∀ inp, s.stimulus ≠ .ports true inp) →
    (∀ a, a ≠ s.pos → t.buf.read a = s.buf.read a)
      ∧ (t.buf.read s.pos ≠ s.buf.read s.pos →
          ∃ b, s.stimulus = .feed b ∧ t.buf.read s.pos = some b ∧ t.pos = s.pos + 1 ∧ t.acc = .accept)

/-! ### The machine as a whole -/

/-- R21: a `FEED` step advances the cursor by exactly one or sets it to 0; a step without a byte leaves it, but for `RESET`; the cursor stays in `0 .. BUF_CAP`, at
264 it fits in 9 bits, and its reset value is 0. -/
def Obligations.CursorAdvancesByOneOrReturnsToZero : Prop :=
  (∀ s t : State, step s = .next t →
      (∀ b, s.stimulus = .feed b → t.pos = s.pos + 1 ∨ t.pos = 0)
        ∧ (s.stimulus = .noByte → t.pos = s.pos)
        ∧ (∀ inp, s.stimulus = .ports true inp → t.pos = 0)
        ∧ (s.Inv → t.pos ≤ s.cfg.bufCap ∧ (s.cfg.bufCap = 264 → t.pos < 2 ^ 9)))
    ∧ State.reset.pos = 0

/-- When the outputs are driven (10_state.md section 5; the spec's decisions D1 and D7): `acc` is NONE exactly on steps without a
byte, and an event occurs only on a `FEED` step at the checksum position. -/
def Obligations.OutputsOnlyOnFeedEventsOnlyAtChecksum : Prop :=
  ∀ s t : State, step s = .next t →
    (t.acc ≠ .none ↔ ∃ b, s.stimulus = .feed b)
      ∧ (t.ev ≠ .none → ∃ b l, s.stimulus = .feed b ∧ bufRead s 8 = some l ∧ s.pos = 9 + l.toNat)

/-- R204: no step emits an error event other than `InvalidRpc`, so never `BadChecksum`, `UnknownRpc` or `UnableToConnect`; the
command value `BadChecksum` comes of the decoder's verify mode only, which no event of the receiver uses. -/
def Obligations.OnlyInvalidRpcIsEverSignalled : Prop :=
  (∀ s t : State, step s = .next t → (∀ e, t.ev = .err e → e = .invalidRpc) ∧ t.ev ≠ .cmd .badChecksum)
    ∧ ∀ (c : Config) (p : List Byte) (verify : Bool), decodeCommand c p verify = .command .badChecksum → verify = true

/-- R209: on a reject or an event the cursor goes to 0 and nothing else of the block changes: no byte is stored, nothing is
saved, no entry is readable any more, and the next byte is matched against position 0. -/
def Obligations.RejectsAndEventsOnlyReturnToZero : Prop :=
  ∀ s t : State, step s = .next t → (t.acc = .reject ∨ t.ev ≠ .none) →
    t.pos = 0 ∧ t.buf = s.buf ∧ t.cfg = s.cfg ∧ (∀ i, bufRead t i = none) ∧ ∀ b, decodeByte t.context b = .instr (.pre0 b)

/-- The invariant is kept by every step, from every state that meets it (10_state.md section 7). -/
def Obligations.EveryStepKeepsTheInvariant : Prop :=
  ∀ s t : State, s.Inv → step s = .next t → t.Inv

/-- From every state that meets the invariant the step goes on: neither fault is reachable and nothing is refused
(40_frame_receiver.md section 8, 60_exceptions.md section 1). -/
def Obligations.NoStopUnderTheInvariant : Prop :=
  ∀ s : State, s.Inv → ∃ t, step s = .next t

/-- R100: the step is the listing of the frame receiver, for every stimulus of its ports: the cursor, the buffer and both
outputs are those of the listing, and a fault is the listing's fault. (For a byte, in a state that meets the invariants.) -/
def Obligations.StepAgreesWithTheListing : Prop :=
  ∀ (s : State) (rst : Bool) (inp : Option Byte) (rest : List Stimulus), s.cfg.wf = true → s.assertions = true →
    s.inq = .ports rst inp :: rest → StepIs s rest (stepListing s rst inp)

/-- What stands in the buffer at and beyond the cursor is never observed, so frames are isolated from each other
(10_state.md section 7, 40_frame_receiver.md section 8): two states that agree otherwise have the same outputs for ever, and
still agree. At cursor 0 they need to agree on nothing of the buffer. -/
def Obligations.StaleBytesAreNeverObserved : Prop :=
  (∀ (n : Nat) (s t : State), AgreeBelowCursor s t → SameObservation (observe n s) (observe n t) AgreeBelowCursor)
    ∧ ∀ s t : State, s.pos = 0 → t.pos = 0 → t.cfg = s.cfg → t.inq = s.inq → t.free = s.free → AgreeBelowCursor s t

/-- Synchronisation (40_frame_receiver.md section 8): from cursor 0, whatever the buffer holds, the preamble and the version byte
are accepted, and the cursor stands at 7 with those bytes in the buffer. -/
def Obligations.PreambleAndVersionSynchroniseFromZero : Prop :=
  ∀ (s : State) (rest : List Stimulus), s.cfg.wf = true → s.pos = 0 →
    s.inq = feeds (Config.preamble ++ [s.cfg.version]) ++ rest →
    ∃ u, observe 7 s = some (List.replicate 7 (.accept, .none), u) ∧ u.pos = 7 ∧ u.inq = rest
      ∧ u.visible = (Config.preamble ++ [s.cfg.version]).map some

/-- Frame completion (40_frame_receiver.md section 8): from cursor 0 a whole frame is accepted byte by byte in `10 + L` steps,
and its one event comes with the last byte. -/
def Obligations.WholeFrameIsAcceptedAndAnswered : Prop :=
  ∀ (s : State) (ftype : Byte) (p : List Byte) (rest : List Stimulus), s.cfg.wf = true → s.pos = 0 → p.length ≤ 255 →
    9 + p.length ≤ s.cfg.bufCap → s.inq = feeds (frame s.cfg.version ftype p) ++ rest →
    ∃ u, observe (10 + p.length) s
        = some (List.replicate (9 + p.length) (.accept, .none) ++ [(.accept, frameEvent s.cfg ftype p)], u)
      ∧ u.pos = 0 ∧ u.inq = rest ∧ u.cfg = s.cfg

/-- Recovery (70_reset_and_hazards.md section 2): from every state that meets the invariant, 258 or more copies of a byte other
than `I` bring the cursor to 0 and keep it there; 256 suffice for the byte 0. The case that both the filler and `VERSION` are
`0xFF` is left out: there a receiver at position 6 accepts the first filler byte and needs one byte more (log entry 18). -/
def Obligations.FillerBytesBringTheCursorToZero : Prop :=
  ∀ (s : State) (f : Byte) (n : Nat) (rest : List Stimulus), s.Inv → f ≠ 0x49#8 →
    (258 ≤ n ∧ (f ≠ 0xFF#8 ∨ s.cfg.version ≠ 0xFF#8) ∨ 256 ≤ n ∧ f = 0x00#8) →
    s.inq = List.replicate n (.feed f) ++ rest →
    ∃ o u, observe n s = some (o, u) ∧ u.pos = 0 ∧ u.inq = rest
end

