-- ==== Sys2Proof/Laws/Memory.lean ====
section
/-! SUPPORT. The parse buffer: reads after writes, the canonical form, ranges. -/

namespace Sys2Proof.Machine

namespace Memory

@[simp] theorem read_nil (a : Nat) : Memory.read [] a = none := rfl

/-- A read after a write to the same address gives the byte written. -/
@[simp] theorem read_write_same (m : Memory) (a : Nat) (b : Byte) : (m.write a b).read a = some b := by
  induction m with
  | nil => simp [Memory.write, Memory.read]
  | cons cell rest ih =>
    obtain ⟨k, c⟩ := cell
    rcases Nat.lt_trichotomy a k with h | h | h
    · simp [Memory.write, Memory.read, h]
    · simp [Memory.write, Memory.read, h]
    · have h1 : ¬ a < k := by omega
      have h2 : a ≠ k := by omega
      simp [Memory.write, Memory.read, h1, h2, h2.symm, ih]

/-- A write leaves every other address alone. -/
theorem read_write_other (m : Memory) {a x : Nat} (b : Byte) (h : x ≠ a) : (m.write a b).read x = m.read x := by
  induction m with
  | nil => simp [Memory.write, Memory.read, h.symm, Memory.unlisted]
  | cons cell rest ih =>
    obtain ⟨k, c⟩ := cell
    rcases Nat.lt_trichotomy a k with h' | h' | h'
    · simp [Memory.write, Memory.read, h', h.symm]
    · subst h'; simp [Memory.write, Memory.read, h.symm]
    · have h1 : ¬ a < k := by omega
      have h2 : a ≠ k := by omega
      simp [Memory.write, Memory.read, h1, h2, ih]

theorem risingFrom_write (m : Memory) (lo a : Nat) (b : Byte) (hlo : lo ≤ a) (h : m.risingFrom lo = true) :
    (m.write a b).risingFrom lo = true := by
  induction m generalizing lo with
  | nil => simp [Memory.write, Memory.risingFrom, hlo]
  | cons cell rest ih =>
    obtain ⟨k, c⟩ := cell
    simp only [Memory.risingFrom, Bool.and_eq_true, decide_eq_true_eq] at h
    rcases Nat.lt_trichotomy a k with h' | h' | h'
    · simp only [Memory.write, h', if_true, Memory.risingFrom, Bool.and_eq_true, decide_eq_true_eq]
      exact ⟨hlo, by omega, h.2⟩
    · subst h'
      simp [Memory.write, Memory.risingFrom, h.1, h.2]
    · have h1 : ¬ a < k := by omega
      have h2 : a ≠ k := by omega
      simp only [Memory.write, h1, h2, if_false, Memory.risingFrom, Bool.and_eq_true, decide_eq_true_eq]
      exact ⟨h.1, ih (k + 1) (by omega) h.2⟩

/-- A write keeps the canonical form. -/
theorem wf_write (m : Memory) (a : Nat) (b : Byte) (h : m.wf = true) : (m.write a b).wf = true :=
  risingFrom_write m 0 a b (Nat.zero_le a) h

/-- A write below the capacity keeps every address below it. -/
theorem within_write (m : Memory) (cap a : Nat) (b : Byte) (ha : a < cap) (h : m.within cap = true) :
    (m.write a b).within cap = true := by
  induction m with
  | nil => simp [Memory.write, Memory.within, ha]
  | cons cell rest ih =>
    obtain ⟨k, c⟩ := cell
    simp only [Memory.within, List.all_cons, Bool.and_eq_true, decide_eq_true_eq] at h ih
    unfold Memory.write
    split
    · simp [Memory.within, ha, h.1]; simpa using h.2
    · split
      · simp [Memory.within, ha]; simpa using h.2
      · simp only [Memory.within, List.all_cons, Bool.and_eq_true, decide_eq_true_eq]
        exact ⟨h.1, ih h.2⟩

theorem wf_nil : Memory.wf [] = true := rfl

theorem within_nil (cap : Nat) : Memory.within cap [] = true := rfl

end Memory

/-! ### Reads below the cursor -/

theorem bufRead_of_lt {s : State} {i : Nat} (h : i < s.pos) : bufRead s i = s.buf.read i := by simp [bufRead, h]

/-- A read at or beyond the cursor is undefined (R47). -/
theorem bufRead_of_ge {s : State} {i : Nat} (h : s.pos ≤ i) : bufRead s i = none := by
  simp [bufRead, Nat.not_lt.mpr h]

theorem bufRead_lt_of_some {s : State} {i : Nat} {b : Byte} (h : bufRead s i = some b) : i < s.pos := by
  by_contra hi
  simp [bufRead_of_ge (Nat.not_lt.mp hi)] at h

/-- A range reads as `bs` exactly when its bytes read one by one as those of `bs`. -/
theorem bufReadRange_eq_some {s : State} {i n : Nat} {bs : List Byte} :
    bufReadRange s i n = some bs ↔ bs.length = n ∧ ∀ k, k < n → bufRead s (i + k) = bs[k]? := by
  induction n generalizing i bs with
  | zero =>
    constructor
    · intro h
      cases h
      exact ⟨rfl, fun k hk => absurd hk (Nat.not_lt_zero k)⟩
    · rintro ⟨h, -⟩
      simp [bufReadRange, List.length_eq_zero_iff.mp h]
  | succ n ih =>
    constructor
    · intro h
      simp only [bufReadRange] at h
      split at h
      · rename_i b rest hb hrest
        cases h
        obtain ⟨hlen, hget⟩ := ih.mp hrest
        refine ⟨by simp [hlen], fun k hk => ?_⟩
        cases k with
        | zero => simpa using hb
        | succ k =>
          have := hget k (by omega)
          rw [show i + (k + 1) = i + 1 + k by omega, this]
          simp
      · simp at h
    · rintro ⟨hlen, hget⟩
      cases bs with
      | nil => simp at hlen
      | cons b rest =>
        have h0 : bufRead s i = some b := by simpa using hget 0 (by omega)
        have hr : bufReadRange s (i + 1) n = some rest := by
          refine ih.mpr ⟨by simpa using hlen, fun k hk => ?_⟩
          have := hget (k + 1) (by omega)
          rw [show i + (k + 1) = i + 1 + k by omega] at this
          simpa using this
        simp [bufReadRange, h0, hr]

theorem bufReadRange_length {s : State} {i n : Nat} {bs : List Byte} (h : bufReadRange s i n = some bs) : bs.length = n :=
  (bufReadRange_eq_some.mp h).1

/-- A part of a range that reads as `bs` reads as that part of `bs`. -/
theorem bufReadRange_part {s : State} {n : Nat} {bs : List Byte} (h : bufReadRange s 0 n = some bs) (i m : Nat)
    (him : i + m ≤ n) : bufReadRange s i m = some ((bs.drop i).take m) := by
  obtain ⟨hlen, hget⟩ := bufReadRange_eq_some.mp h
  refine bufReadRange_eq_some.mpr ⟨by simp; omega, fun k hk => ?_⟩
  have := hget (i + k) (by omega)
  simp only [Nat.zero_add] at this
  simp [this, hk]

theorem bufRead_of_range {s : State} {n : Nat} {bs : List Byte} (h : bufReadRange s 0 n = some bs) {i : Nat} (hi : i < n) :
    bufRead s i = bs[i]? := by
  simpa using (bufReadRange_eq_some.mp h).2 i hi

/-- Ranges depend only on the cursor and on the bytes below it. -/
theorem bufReadRange_congr {s t : State} (hpos : t.pos = s.pos) (hbuf : ∀ a, a < s.pos → t.buf.read a = s.buf.read a)
    (i n : Nat) : bufReadRange t i n = bufReadRange s i n := by
  have hread : ∀ a, bufRead t a = bufRead s a := by
    intro a
    by_cases ha : a < s.pos
    · simp [bufRead, hpos, ha, hbuf a ha]
    · simp [bufRead, hpos, ha]
  induction n generalizing i with
  | zero => rfl
  | succ n ih => simp [bufReadRange, hread, ih]

end Sys2Proof.Machine
end

