-- ==== Sys2Proof/Laws/State.lean ====
section
/-! SUPPORT. What each update of the state leaves in each field. -/

namespace Sys2Proof.Machine.State

variable (s : State)

@[simp] theorem setPos_cfg (n : Nat) : (s.setPos n).cfg = s.cfg := rfl
@[simp] theorem setPos_pos (n : Nat) : (s.setPos n).pos = n := rfl
@[simp] theorem setPos_buf (n : Nat) : (s.setPos n).buf = s.buf := rfl
@[simp] theorem setPos_acc (n : Nat) : (s.setPos n).acc = s.acc := rfl
@[simp] theorem setPos_ev (n : Nat) : (s.setPos n).ev = s.ev := rfl
@[simp] theorem setPos_cmdCode (n : Nat) : (s.setPos n).cmdCode = s.cmdCode := rfl
@[simp] theorem setPos_dec (n : Nat) : (s.setPos n).dec = s.dec := rfl
@[simp] theorem setPos_inq (n : Nat) : (s.setPos n).inq = s.inq := rfl
@[simp] theorem setPos_free (n : Nat) : (s.setPos n).free = s.free := rfl

@[simp] theorem toStart_cfg : (s.toStart).cfg = s.cfg := rfl
@[simp] theorem toStart_pos : (s.toStart).pos = 0 := rfl
@[simp] theorem toStart_buf : (s.toStart).buf = s.buf := rfl
@[simp] theorem toStart_acc : (s.toStart).acc = s.acc := rfl
@[simp] theorem toStart_ev : (s.toStart).ev = s.ev := rfl
@[simp] theorem toStart_cmdCode : (s.toStart).cmdCode = s.cmdCode := rfl
@[simp] theorem toStart_dec : (s.toStart).dec = s.dec := rfl
@[simp] theorem toStart_inq : (s.toStart).inq = s.inq := rfl
@[simp] theorem toStart_free : (s.toStart).free = s.free := rfl

@[simp] theorem drive_cfg (x : Acc) (e : Event) (c : Option Byte) (d : Option Verdict) : (s.drive x e c d).cfg = s.cfg := rfl
@[simp] theorem drive_pos (x : Acc) (e : Event) (c : Option Byte) (d : Option Verdict) : (s.drive x e c d).pos = s.pos := rfl
@[simp] theorem drive_buf (x : Acc) (e : Event) (c : Option Byte) (d : Option Verdict) : (s.drive x e c d).buf = s.buf := rfl
@[simp] theorem drive_acc (x : Acc) (e : Event) (c : Option Byte) (d : Option Verdict) : (s.drive x e c d).acc = x := rfl
@[simp] theorem drive_ev (x : Acc) (e : Event) (c : Option Byte) (d : Option Verdict) : (s.drive x e c d).ev = e := rfl
@[simp] theorem drive_cmdCode (x : Acc) (e : Event) (c : Option Byte) (d : Option Verdict) : (s.drive x e c d).cmdCode = c := rfl
@[simp] theorem drive_dec (x : Acc) (e : Event) (c : Option Byte) (d : Option Verdict) : (s.drive x e c d).dec = d := rfl
@[simp] theorem drive_inq (x : Acc) (e : Event) (c : Option Byte) (d : Option Verdict) : (s.drive x e c d).inq = s.inq := rfl
@[simp] theorem drive_free (x : Acc) (e : Event) (c : Option Byte) (d : Option Verdict) : (s.drive x e c d).free = s.free := rfl

@[simp] theorem verdictOnly_cfg (x : Acc) : (s.verdictOnly x).cfg = s.cfg := rfl
@[simp] theorem verdictOnly_pos (x : Acc) : (s.verdictOnly x).pos = s.pos := rfl
@[simp] theorem verdictOnly_buf (x : Acc) : (s.verdictOnly x).buf = s.buf := rfl
@[simp] theorem verdictOnly_acc (x : Acc) : (s.verdictOnly x).acc = x := rfl
@[simp] theorem verdictOnly_ev (x : Acc) : (s.verdictOnly x).ev = .none := rfl
@[simp] theorem verdictOnly_cmdCode (x : Acc) : (s.verdictOnly x).cmdCode = none := rfl
@[simp] theorem verdictOnly_dec (x : Acc) : (s.verdictOnly x).dec = none := rfl
@[simp] theorem verdictOnly_inq (x : Acc) : (s.verdictOnly x).inq = s.inq := rfl
@[simp] theorem verdictOnly_free (x : Acc) : (s.verdictOnly x).free = s.free := rfl

@[simp] theorem consume_cfg : (s.consume).cfg = s.cfg := rfl
@[simp] theorem consume_pos : (s.consume).pos = s.pos := rfl
@[simp] theorem consume_buf : (s.consume).buf = s.buf := rfl
@[simp] theorem consume_acc : (s.consume).acc = s.acc := rfl
@[simp] theorem consume_ev : (s.consume).ev = s.ev := rfl
@[simp] theorem consume_cmdCode : (s.consume).cmdCode = s.cmdCode := rfl
@[simp] theorem consume_dec : (s.consume).dec = s.dec := rfl
@[simp] theorem consume_inq : (s.consume).inq = s.inq.tail := rfl
@[simp] theorem consume_free : (s.consume).free = s.free := rfl

end Sys2Proof.Machine.State
end

