-- ==== Sys2Proof/Laws/Ops.lean ====
section
/-! SUPPORT. What each shared operation can do, once. -/

namespace Sys2Proof.Machine

@[simp] theorem andThen_next (s : State) (f : State → Result) : andThen (.next s) f = f s := rfl

theorem andThen_eq_next {r : Result} {f : State → Result} {t : State} (h : andThen r f = .next t) :
    ∃ s, r = .next s ∧ f s = .next t := by
  cases r with
  | next s => exact ⟨s, rfl, h⟩
  | fault e => cases h
  | refused e => cases h

/-! ### Buffer writes -/

/-- A write in its place (R46). -/
theorem bufWrite_at_cursor (b : Byte) {s : State} (h : s.pos < s.cfg.bufCap) :
    bufWrite s.pos b s = .next { s with buf := s.buf.write s.pos b } := by simp [bufWrite, h]

/-- A write that answers a next state was in its place and changed the buffer at its index only. -/
theorem bufWrite_eq_next {i : Nat} {b : Byte} {s t : State} (h : bufWrite i b s = .next t) :
    i = s.pos ∧ i < s.cfg.bufCap ∧ t = { s with buf := s.buf.write i b } := by
  unfold bufWrite at h
  split at h
  · rename_i hi
    cases h
    exact ⟨hi.1, hi.2, rfl⟩
  · cases h

/-! ### The common actions -/

/-- The state after `ADVANCE(b)` below the capacity. -/
def advanced (b : Byte) (s : State) : State :=
  ({ s with buf := s.buf.write s.pos b }.setPos (s.pos + 1)).verdictOnly .accept

/-- The state after a silent reject. -/
def rejected (s : State) : State := s.toStart.verdictOnly .reject

theorem advance_of_lt (b : Byte) {s : State} (h : s.pos < s.cfg.bufCap) : advance b s = .next (advanced b s) := by
  simp [advance, h, bufWrite_at_cursor b h, advanced]

theorem advance_of_ge (b : Byte) {s : State} (h : s.cfg.bufCap ≤ s.pos) : advance b s = .next (rejected s) := by
  simp [advance, Nat.not_lt.mpr h, overflow, reject, rejected]

theorem reject_eq (s : State) : reject s = .next (rejected s) := rfl

theorem expect_match (want : Byte) {s : State} (h : s.pos < s.cfg.bufCap) :
    expect want want s = .next (advanced want s) := by simp [expect, advance_of_lt want h]

theorem expect_mismatch {want b : Byte} (s : State) (h : b ≠ want) : expect want b s = .next (rejected s) := by
  simp [expect, h, reject_eq]

section
variable (b : Byte) (s : State)
@[simp] theorem advanced_pos : (advanced b s).pos = s.pos + 1 := rfl
@[simp] theorem advanced_buf : (advanced b s).buf = s.buf.write s.pos b := rfl
@[simp] theorem advanced_cfg : (advanced b s).cfg = s.cfg := rfl
@[simp] theorem advanced_inq : (advanced b s).inq = s.inq := rfl
@[simp] theorem advanced_free : (advanced b s).free = s.free := rfl
@[simp] theorem advanced_acc : (advanced b s).acc = .accept := rfl
@[simp] theorem advanced_ev : (advanced b s).ev = .none := rfl
@[simp] theorem advanced_cmdCode : (advanced b s).cmdCode = none := rfl
@[simp] theorem advanced_dec : (advanced b s).dec = none := rfl
@[simp] theorem rejected_pos : (rejected s).pos = 0 := rfl
@[simp] theorem rejected_buf : (rejected s).buf = s.buf := rfl
@[simp] theorem rejected_cfg : (rejected s).cfg = s.cfg := rfl
@[simp] theorem rejected_inq : (rejected s).inq = s.inq := rfl
@[simp] theorem rejected_free : (rejected s).free = s.free := rfl
@[simp] theorem rejected_acc : (rejected s).acc = .reject := rfl
@[simp] theorem rejected_ev : (rejected s).ev = .none := rfl
@[simp] theorem rejected_cmdCode : (rejected s).cmdCode = none := rfl
@[simp] theorem rejected_dec : (rejected s).dec = none := rfl
end

/-! ### Selection -/

theorem whenClassIs_selected {i : Instr} {b : Byte} {s : State} (act : Result)
    (h : decodeByte s.context b = .instr i) : whenClassIs i b s act = act := by simp [whenClassIs, h]

theorem whenClassIs_eq_next {i : Instr} {b : Byte} {s t : State} {act : Result}
    (h : whenClassIs i b s act = .next t) : decodeByte s.context b = .instr i ∧ act = .next t := by
  unfold whenClassIs at h
  split at h
  · rename_i hi
    exact ⟨hi, h⟩
  · cases h

theorem runRow_selected {row : DecoderRow} {p : List Byte} {verify : Bool} {s : State} (result : Verdict)
    (h : classify s.cfg p verify = row) :
    runRow row result p verify s = .next (s.drive .none .none none (some result)) := by simp [runRow, h]

theorem runRow_eq_next {row : DecoderRow} {result : Verdict} {p : List Byte} {verify : Bool} {s t : State}
    (h : runRow row result p verify s = .next t) :
    classify s.cfg p verify = row ∧ t = s.drive .none .none none (some result) := by
  unfold runRow at h
  split at h
  · rename_i hrow
    cases h
    exact ⟨hrow, rfl⟩
  · cases h

/-! ### Delivering the decoder's answer -/

/-- The event of an answer (R113). -/
def eventOf (r : Verdict) : Event :=
  match r with
  | .malformed => .err .invalidRpc
  | .command c => .cmd c

/-- `deliver` always answers a next state: the cursor at 0, the buffer as before, `ACCEPT` and the answer's event. -/
theorem deliver_spec (p : List Byte) (r : Verdict) (s : State) :
    ∃ t, deliver p r s = .next t ∧ t.pos = 0 ∧ t.buf = s.buf ∧ t.cfg = s.cfg ∧ t.inq = s.inq ∧ t.acc = .accept
      ∧ t.ev = eventOf r ∧ t.dec = some r := by
  cases r with
  | malformed => exact ⟨_, rfl, rfl, rfl, rfl, rfl, rfl, rfl, rfl⟩
  | command c =>
    cases p with
    | nil => exact ⟨_, rfl, rfl, rfl, rfl, rfl, rfl, rfl, rfl⟩
    | cons code rest => exact ⟨_, rfl, rfl, rfl, rfl, rfl, rfl, rfl, rfl⟩

end Sys2Proof.Machine
end

