-- ==== Sys2Proof/Laws/Decode.lean ====
section
/-! SUPPORT. The class of a byte, position by position. -/

namespace Sys2Proof

/-- From position 9 on, up to the last payload position, a byte is payload (R111). -/
theorem decodeByte_payload {c : Context} {l : Byte} (b : Byte) (hpos : 9 ≤ c.pos) (hlen : c.len = some l)
    (h : c.pos ≤ 8 + l.toNat) : decodeByte c b = .instr (.pay b) := by
  obtain ⟨k, hk⟩ : ∃ k, c.pos = k + 9 := ⟨c.pos - 9, by omega⟩
  unfold decodeByte
  simp only [hk, hlen]
  rw [if_pos (by omega)]

/-- The class of a byte at the checksum position: by the sum, then by the frame type (R112 to R114). -/
def checksumInstr (x ftype b : Byte) : Instr :=
  if b ≠ x then .csumBad b else if ftype = Config.typeRpcCommand then .csumRpc b else .csumOther b

theorem decodeByte_checksum {c : Context} {l x ftype : Byte} (b : Byte) (hlen : c.len = some l)
    (hpos : c.pos = 9 + l.toNat) (hsum : c.sum = some x) (htype : c.ftype = some ftype) :
    decodeByte c b = .instr (checksumInstr x ftype b) := by
  have hk : c.pos = l.toNat + 9 := by omega
  unfold decodeByte checksumInstr
  simp only [hk, hlen, hsum, htype]
  rw [if_neg (by omega), if_pos (by omega)]
  split_ifs <;> rfl

/-- Beyond the checksum position no byte has a class (R120). -/
theorem decodeByte_beyond {c : Context} {l : Byte} (b : Byte) (hlen : c.len = some l) (hpos : 9 + l.toNat < c.pos) :
    decodeByte c b = .reject .invariantBroken := by
  obtain ⟨k, hk⟩ : ∃ k, c.pos = k + 9 := ⟨c.pos - 9, by omega⟩
  unfold decodeByte
  simp only [hk, hlen]
  rw [if_neg (by omega), if_neg (by omega)]

/-- What selects each class: the one case analysis of `decodeByte`. -/
inductive Selects (c : Context) (b : Byte) : Instr → Prop
  | pre0 (h : c.pos = 0) : Selects c b (.pre0 b)
  | pre1 (h : c.pos = 1) : Selects c b (.pre1 b)
  | pre2 (h : c.pos = 2) : Selects c b (.pre2 b)
  | pre3 (h : c.pos = 3) : Selects c b (.pre3 b)
  | pre4 (h : c.pos = 4) : Selects c b (.pre4 b)
  | pre5 (h : c.pos = 5) : Selects c b (.pre5 b)
  | ver (h : c.pos = 6) : Selects c b (.ver b)
  | typeByte (h : c.pos = 7) : Selects c b (.typeByte b)
  | lenByte (h : c.pos = 8) : Selects c b (.lenByte b)
  | pay (l : Byte) (hlen : c.len = some l) (h9 : 9 ≤ c.pos) (h : c.pos ≤ 8 + l.toNat) : Selects c b (.pay b)
  | csumBad (l x : Byte) (hlen : c.len = some l) (h : c.pos = 9 + l.toNat) (hsum : c.sum = some x) (hb : b ≠ x) :
      Selects c b (.csumBad b)
  | csumRpc (l : Byte) (hlen : c.len = some l) (h : c.pos = 9 + l.toNat) (hsum : c.sum = some b)
      (htype : c.ftype = some Config.typeRpcCommand) : Selects c b (.csumRpc b)
  | csumOther (l ftype : Byte) (hlen : c.len = some l) (h : c.pos = 9 + l.toNat) (hsum : c.sum = some b)
      (htype : c.ftype = some ftype) (hne : ftype ≠ Config.typeRpcCommand) : Selects c b (.csumOther b)

theorem selects_of_decodeByte {c : Context} {b : Byte} {i : Instr} (h : decodeByte c b = .instr i) : Selects c b i := by
  unfold decodeByte at h
  split at h
  case h_1 h0 => cases h; exact .pre0 h0
  case h_2 h0 => cases h; exact .pre1 h0
  case h_3 h0 => cases h; exact .pre2 h0
  case h_4 h0 => cases h; exact .pre3 h0
  case h_5 h0 => cases h; exact .pre4 h0
  case h_6 h0 => cases h; exact .pre5 h0
  case h_7 h0 => cases h; exact .ver h0
  case h_8 h0 => cases h; exact .typeByte h0
  case h_9 h0 => cases h; exact .lenByte h0
  case h_10 k hk =>
    split at h
    · cases h
    · rename_i l hl
      split at h
      · cases h
        exact .pay l hl (by omega) (by omega)
      · split at h
        · split at h
          · rename_i x ftype hx ht
            split at h
            · rename_i hb
              cases h
              exact .csumBad l x hl (by omega) hx hb
            · rename_i hb
              have hbx : b = x := not_not.mp hb
              subst hbx
              split at h
              · rename_i h3
                subst h3
                cases h
                exact .csumRpc l hl (by omega) hx ht
              · rename_i h3
                cases h
                exact .csumOther l ftype hl (by omega) hx ht h3
          · cases h
        · cases h

end Sys2Proof
end

