-- ==== Sys2Proof/Laws/Step.lean ====
section
/-! SUPPORT. Everything a step can do, once. -/

namespace Sys2Proof.Machine

section
variable (s : State)
@[simp] theorem context_pos : s.context.pos = s.pos := rfl
@[simp] theorem context_len : s.context.len = bufRead s 8 := rfl
@[simp] theorem context_ftype : s.context.ftype = bufRead s 7 := rfl
@[simp] theorem context_sum : s.context.sum = (bufReadRange s 0 s.pos).map sum8 := rfl
@[simp] theorem context_consume : s.consume.context = s.context := by
  have hr : ∀ i, bufRead s.consume i = bufRead s i := fun _ => rfl
  have hrange : ∀ i n, bufReadRange s.consume i n = bufReadRange s i n := fun i n =>
    bufReadRange_congr (s := s) (t := s.consume) rfl (fun _ _ => rfl) i n
  simp [State.context, hr, hrange]
end

/-- What the rules let `ADVANCE` store at the cursor: the preamble character, the version, anything at 7 and 8, a payload byte. -/
def Admits (s : State) (b : Byte) : Prop :=
  (s.pos < 6 → Config.preamble[s.pos]? = some b) ∧ (s.pos = 6 → b = s.cfg.version)
    ∧ (9 ≤ s.pos → ∃ l, bufRead s 8 = some l ∧ s.pos ≤ 8 + l.toNat)

/-- What the rules let a `FEED` step do to the block. -/
inductive Fed (s : State) (b : Byte) (t : State) : Prop
  /-- `ADVANCE` (R115). -/
  | advance (hcap : s.pos < s.cfg.bufCap) (hb : Admits s b) (h : t = advanced b s)
  /-- `REJECT` (R116) and `OVERFLOW` (R117). -/
  | reject (h : t = rejected s)
  /-- The checksum byte (R112 to R114). -/
  | finish (l : Byte) (hlen : bufRead s 8 = some l) (hat : s.pos = 9 + l.toNat) (hpos : t.pos = 0) (hbuf : t.buf = s.buf)
      (hcfg : t.cfg = s.cfg) (hinq : t.inq = s.inq) (hacc : t.acc ≠ .none)
      (hev : t.ev = .none ∨ t.ev = .err .invalidRpc ∨ ∃ p c, decodeCommand s.cfg p false = .command c ∧ t.ev = .cmd c)
      (hsilent : t.acc = .reject → t.ev = .err .invalidRpc)

theorem fed_expect {s t : State} {want b : Byte} (h : expect want b s = .next t) (hb : b = want → Admits s b) :
    Fed s b t := by
  unfold expect at h
  split at h
  · rename_i hbw
    by_cases hcap : s.pos < s.cfg.bufCap
    · rw [advance_of_lt b hcap] at h
      cases h
      exact .advance hcap (hb hbw) rfl
    · rw [advance_of_ge b (by omega)] at h
      cases h
      exact .reject rfl
  · cases h
    exact .reject rfl

theorem fed_advance {s t : State} {b : Byte} (h : advance b s = .next t) (hb : Admits s b) : Fed s b t :=
  fed_expect (want := b) (by simpa [expect] using h) fun _ => hb

theorem eventOf_decodeCommand (c : Config) (p : List Byte) :
    eventOf (decodeCommand c p false) = .err .invalidRpc ∨
      ∃ p' cm, decodeCommand c p' false = .command cm ∧ eventOf (decodeCommand c p false) = .cmd cm := by
  cases h : decodeCommand c p false with
  | malformed => exact .inl rfl
  | command cm => exact .inr ⟨p, cm, h, rfl⟩

/-- A byte's instruction, run in a state that selects it, does one of the three things of `Fed`. -/
theorem fed_of_exec {s t : State} {b : Byte} {i : Instr} (hsel : decodeByte s.context b = .instr i)
    (h : exec i s = .next t) : Fed s b t := by
  cases selects_of_decodeByte hsel with
  | pre0 hp => exact fed_expect (whenClassIs_eq_next h).2 (by rintro rfl; simp_all [Admits, Config.preamble])
  | pre1 hp => exact fed_expect (whenClassIs_eq_next h).2 (by rintro rfl; simp_all [Admits, Config.preamble])
  | pre2 hp => exact fed_expect (whenClassIs_eq_next h).2 (by rintro rfl; simp_all [Admits, Config.preamble])
  | pre3 hp => exact fed_expect (whenClassIs_eq_next h).2 (by rintro rfl; simp_all [Admits, Config.preamble])
  | pre4 hp => exact fed_expect (whenClassIs_eq_next h).2 (by rintro rfl; simp_all [Admits, Config.preamble])
  | pre5 hp => exact fed_expect (whenClassIs_eq_next h).2 (by rintro rfl; simp_all [Admits, Config.preamble])
  | ver hp => exact fed_expect (whenClassIs_eq_next h).2 (by rintro rfl; simp_all [Admits])
  | typeByte hp => exact fed_advance (whenClassIs_eq_next h).2 (by simp_all [Admits])
  | lenByte hp => exact fed_advance (whenClassIs_eq_next h).2 (by simp_all [Admits])
  | pay l hlen h9 hle =>
    simp only [context_pos, context_len] at hlen h9 hle
    exact fed_advance (whenClassIs_eq_next h).2 ⟨by omega, by omega, fun _ => ⟨l, hlen, hle⟩⟩
  | csumBad l x hlen hp hsum hb =>
    have h' := (whenClassIs_eq_next h).2
    cases h'
    exact .finish l hlen hp rfl rfl rfl rfl (by simp) (.inr (.inl rfl)) fun _ => rfl
  | csumRpc l hlen hp hsum htype =>
    have h' := (whenClassIs_eq_next h).2
    split at h'
    · cases h'
    · rename_i p _
      obtain ⟨u, hu, hpos, hbuf, hcfg, hinq, hacc, hev, -⟩ := deliver_spec p (decodeCommand s.cfg p false) s
      rw [hu] at h'
      cases h'
      refine .finish l hlen hp hpos hbuf hcfg hinq (by simp [hacc]) ?_ (by simp [hacc])
      rw [hev]
      exact .inr (eventOf_decodeCommand s.cfg p)
  | csumOther l ftype hlen hp hsum htype hne =>
    have h' := (whenClassIs_eq_next h).2
    cases h'
    exact .finish l hlen hp rfl rfl rfl rfl (by simp) (.inl rfl) (by simp)

/-- What a step can do. -/
inductive StepCases (s t : State) : Prop
  | reset (inp : Option Byte) (hstim : s.stimulus = .ports true inp) (h : exec .reset s.consume = .next t)
  | idle (hstim : s.stimulus = .noByte) (h : t = s.consume.verdictOnly .none)
  | row (p : List Byte) (verify : Bool) (hstim : s.stimulus = .decode p verify)
      (h : exec ((classify s.cfg p verify).toInstr p verify) s.consume = .next t)
  | feed (b : Byte) (i : Instr) (hstim : s.stimulus = .feed b) (hassert : s.assertions = true)
      (hsel : decodeByte s.context b = .instr i) (h : exec i s.consume = .next t) (hfed : Fed s.consume b t)

theorem step_cases {s t : State} (h : step s = .next t) : s.cfg.wf = true ∧ StepCases s t := by
  unfold step at h
  split at h
  case isFalse => cases h
  case isTrue hwf =>
    refine ⟨hwf, ?_⟩
    split at h
    case h_2 => cases h
    case h_1 i hi =>
      unfold fetch at hi
      split at hi
      · rename_i inp hstim
        simp only [decode, hstim] at hi
        cases hi
        exact .reset inp hstim h
      · rename_i hstim
        simp only [decode, hstim] at hi
        cases hi
        cases h
        exact .idle hstim rfl
      · rename_i b hstim
        split at hi
        · rename_i hassert
          simp only [decode, hstim] at hi
          exact .feed b i hstim hassert hi h (fed_of_exec (by simpa using hi) h)
        · cases hi
      · rename_i p v hstim
        simp only [decode, hstim] at hi
        cases hi
        exact .row p v hstim h

/-- A decoder row, where it answers a next state, drives the answer and nothing else (R154). -/
theorem exec_row_eq_next {row : DecoderRow} {p : List Byte} {verify : Bool} {s t : State}
    (h : exec (row.toInstr p verify) s = .next t) :
    classify s.cfg p verify = row ∧ t = s.drive .none .none none (some (answer row p)) := by
  cases row <;> exact runRow_eq_next h

/-- A decoder row on operands of its own answers a next state. -/
theorem exec_row_selected {row : DecoderRow} {p : List Byte} {verify : Bool} {s : State}
    (h : classify s.cfg p verify = row) :
    exec (row.toInstr p verify) s = .next (s.drive .none .none none (some (answer row p))) := by
  cases row <;> exact runRow_selected _ h

end Sys2Proof.Machine
end

