-- ==== Sys2Proof/Laws/Checksum.lean ====
section
/-! SUPPORT. The state at the checksum position. -/

namespace Sys2Proof.Machine

/-- The views of the buffer at the checksum position (R23). -/
theorem AtChecksum.views {s : State} {body : List Byte} (h : AtChecksum s body) :
    ∃ l ftype : Byte, body[8]? = some l ∧ body[7]? = some ftype ∧ body.length = s.pos ∧ s.pos = 9 + l.toNat
      ∧ bufRead s 8 = some l ∧ bufRead s 7 = some ftype ∧ s.context.sum = some (sum8 body)
      ∧ payload s = some (body.drop 9) := by
  obtain ⟨hbody, l, hl, hpos⟩ := h
  have hlen := bufReadRange_length hbody
  have h7 : 7 < body.length := by omega
  refine ⟨l, body[7], hl, List.getElem?_eq_getElem h7, hlen, hpos, ?_, ?_, ?_, ?_⟩
  · rw [bufRead_of_range hbody (by omega), hl]
  · rw [bufRead_of_range hbody (by omega), List.getElem?_eq_getElem h7]
  · simp [hbody]
  · have h8 : bufRead s 8 = some l := by rw [bufRead_of_range hbody (by omega), hl]
    have hr := bufReadRange_part hbody 9 l.toNat (by omega)
    rw [List.take_of_length_le (by simp; omega)] at hr
    simp [payload, h8, hr]

/-- The class of the checksum byte (R112 to R114). -/
theorem AtChecksum.decodeByte_eq {s : State} {body : List Byte} {ftype : Byte} (h : AtChecksum s body)
    (htype : body[7]? = some ftype) (b : Byte) :
    decodeByte s.context b = .instr (checksumInstr (sum8 body) ftype b) := by
  obtain ⟨l, t, -, h7, -, hpos, hr8, hr7, hsum, -⟩ := h.views
  obtain rfl : t = ftype := by simpa [h7] using htype
  exact decodeByte_checksum b hr8 hpos hsum hr7

/-- A right checksum byte of an rpc-command frame delivers the decoder's answer (R113). -/
theorem exec_csumRpc {s : State} {b : Byte} {p : List Byte} (h : CompletesRpc s b p) :
    exec (.csumRpc b) s = deliver p (decodeCommand s.cfg p false) s := by
  obtain ⟨body, hat, htype, rfl, rfl⟩ := h
  have hd := hat.decodeByte_eq htype (sum8 body)
  obtain ⟨l, t, -, -, -, -, -, -, -, hpay⟩ := hat.views
  simp only [checksumInstr, ne_eq, not_true_eq_false, if_false, if_true] at hd
  simp only [exec, execCsumRpc]
  rw [whenClassIs_selected _ hd, hpay]

/-- The event of a valid rpc-command frame is its answer's. -/
theorem exec_csumRpc_event {s : State} {b : Byte} {p : List Byte} {r : Verdict} (h : CompletesRpc s b p)
    (hr : decodeCommand s.cfg p false = r) : ∃ t, exec (.csumRpc b) s = .next t ∧ t.ev = eventOf r := by
  obtain ⟨t, ht, -, -, -, -, -, hev, -⟩ := deliver_spec p r s
  exact ⟨t, by rw [exec_csumRpc h, hr, ht], hev⟩

end Sys2Proof.Machine
end

