-- ==== Sys2Proof/Laws/Config.lean ====
section
/-! SUPPORT. The four command codes of a well-formed configuration are pairwise distinct, also where one is left open. -/

namespace Sys2Proof

theorem Config.avoid_ne (x y z r : Byte) :
    Config.avoid x y z r ≠ x ∧ Config.avoid x y z r ≠ y ∧ Config.avoid x y z r ≠ z := by
  unfold Config.avoid
  split_ifs with h0 h1 h2
  · exact h0
  · exact h1
  · exact h2
  · refine ⟨?_, ?_, ?_⟩ <;> intro h <;> subst h <;> simp_all <;> bv_omega

/-- The codes are pairwise distinct (R7). -/
structure Config.CodesDistinct (c : Config) : Prop where
  wifi_state : c.codeWifiSettings ≠ c.codeGetCurrentState
  wifi_info : c.codeWifiSettings ≠ c.codeGetDeviceInfo
  state_info : c.codeGetCurrentState ≠ c.codeGetDeviceInfo
  networks_wifi : c.wifiNetworksCode ≠ c.codeWifiSettings
  networks_state : c.wifiNetworksCode ≠ c.codeGetCurrentState
  networks_info : c.wifiNetworksCode ≠ c.codeGetDeviceInfo

theorem Config.codesDistinct {c : Config} (h : c.wf = true) : c.CodesDistinct := by
  have hav := Config.avoid_ne c.codeWifiSettings c.codeGetCurrentState c.codeGetDeviceInfo Config.freeCode
  unfold Config.wf at h
  cases hg : c.codeGetWifiNetworks with
  | none =>
    simp only [hg, Bool.and_true, Bool.and_eq_true, decide_eq_true_eq] at h
    exact ⟨h.1.1.2, h.1.2, h.2, by simpa [Config.wifiNetworksCode, hg] using hav.1,
      by simpa [Config.wifiNetworksCode, hg] using hav.2.1, by simpa [Config.wifiNetworksCode, hg] using hav.2.2⟩
  | some g =>
    simp only [hg, Bool.and_eq_true, decide_eq_true_eq] at h
    exact ⟨h.1.1.1.2, h.1.1.2, h.1.2, by simpa [Config.wifiNetworksCode, hg] using h.2.1.1,
      by simpa [Config.wifiNetworksCode, hg] using h.2.1.2, by simpa [Config.wifiNetworksCode, hg] using h.2.2⟩

theorem Config.nine_le_bufCap {c : Config} (h : c.wf = true) : 9 ≤ c.bufCap := by
  unfold Config.wf at h
  simp only [Bool.and_eq_true, decide_eq_true_eq] at h
  exact h.1.1.1.1

end Sys2Proof
end

