-- ==== Sys2Proof/Laws/Decoder.lean ====
section
/-! SUPPORT. The command decoder on payloads written field by field. -/

namespace Sys2Proof

/-- A length below 256 survives its length byte. -/
theorem toNat_lengthByte {n : Nat} (h : n ≤ 255) : (BitVec.ofNat 8 n).toNat = n := by
  simp [Nat.mod_eq_of_lt (show n < 256 by omega)]

@[simp] theorem sum8_nil : sum8 [] = 0#8 := rfl

/-- The sum of bytes as integers, modulo 256 (R118). -/
theorem sum8_toNat (xs : List Byte) : (sum8 xs).toNat = (xs.map BitVec.toNat).sum % 256 := by simp [sum8]

/-- A running sum agrees with the sum over the bytes so far (R35). -/
theorem sum8_concat (xs : List Byte) (b : Byte) : sum8 (xs ++ [b]) = sum8 xs + b := by
  apply BitVec.eq_of_toNat_eq
  simp [sum8]

/-- The strings of `WifiSettings` data whose lengths fit (R145, R147); `tail` is what follows the declared data. -/
theorem wifiFields_strings (code d : Byte) (ssid pw trailing tail : List Byte)
    (hd : d.toNat = (Machine.wifiData ssid pw trailing).length) :
    wifiFields (code :: d :: (Machine.wifiData ssid pw trailing ++ tail)) = some (ssid, pw) := by
  have hdn : d.toNat = ssid.length + pw.length + trailing.length + 2 := by
    rw [hd]; simp [Machine.wifiData]; omega
  have hlt := d.isLt
  have hs : (BitVec.ofNat 8 ssid.length).toNat = ssid.length := toNat_lengthByte (by omega)
  have hp : (BitVec.ofNat 8 pw.length).toNat = pw.length := toNat_lengthByte (by omega)
  have hget : (code :: d :: (Machine.wifiData ssid pw trailing ++ tail))[3 + ssid.length]? = some (BitVec.ofNat 8 pw.length) := by
    rw [show 3 + ssid.length = ssid.length + 1 + 1 + 1 by omega]
    simp [Machine.wifiData]
  have hdrop3 : (code :: d :: (Machine.wifiData ssid pw trailing ++ tail)).drop 3
      = ssid ++ (BitVec.ofNat 8 pw.length :: pw ++ trailing ++ tail) := by simp [Machine.wifiData]
  have hdrop4 : (code :: d :: (Machine.wifiData ssid pw trailing ++ tail)).drop (4 + ssid.length)
      = pw ++ (trailing ++ tail) := by
    rw [show 4 + ssid.length = 3 + (ssid.length + 1) by omega, ← List.drop_drop, hdrop3]
    simp
  have h2 : (code :: d :: (Machine.wifiData ssid pw trailing ++ tail))[2]? = some (BitVec.ofNat 8 ssid.length) := by
    simp [Machine.wifiData]
  unfold wifiFields
  simp only [h2, hs, hget, hp, hdrop3, hdrop4, hdn]
  rw [if_neg (by omega), if_neg (by omega), if_neg (by omega)]
  simp

/-- Lengths that overrun the declared data (R146). -/
theorem wifiFields_overrun (code d : Byte) (data tail : List Byte) (hd : d.toNat = data.length)
    (h : Machine.Overruns data) : wifiFields (code :: d :: (data ++ tail)) = none := by
  unfold wifiFields
  simp only [hd]
  rcases h with rfl | ⟨s, rest, rfl, hs⟩ | ⟨s, ssid, pw, rest, rfl, hs, hp⟩
  · simp
  · rw [if_neg (by simp; omega)]
    have h2 : (code :: d :: (s :: rest ++ tail))[2]? = some s := by simp
    simp only [h2]
    rw [if_pos (by simp; omega)]
  · rw [if_neg (by simp; omega)]
    have h2 : (code :: d :: (s :: ssid ++ pw :: rest ++ tail))[2]? = some s := by simp
    have h3 : (code :: d :: (s :: ssid ++ pw :: rest ++ tail))[3 + s.toNat]? = some pw := by
      rw [← hs, show 3 + ssid.length = ssid.length + 1 + 1 + 1 by omega]
      simp
    simp only [h2, h3]
    split
    · rfl
    · rw [if_pos (by simp; omega)]

/-- The row that a payload with right lengths (and, in verify mode, a right checksum) selects: by its code alone (R144). -/
def rowOfCode (c : Config) (code : Byte) (p : List Byte) : DecoderRow :=
  if code = c.codeWifiSettings then
    match wifiFields p with
    | none => .wifiSettingsOverrun
    | some _ => .wifiSettings
  else if code = c.codeGetCurrentState then .getCurrentState
  else if code = c.codeGetDeviceInfo then .getDeviceInfo
  else if code = c.wifiNetworksCode then .getWifiNetworks
  else .other

theorem classify_framed (c : Config) (verify : Bool) (code : Byte) (data : List Byte) (h : data.length ≤ 255) :
    classify c (Machine.framedPayload verify code data) verify
      = rowOfCode c code (Machine.framedPayload verify code data) := by
  have hd := toNat_lengthByte h
  cases verify with
  | false =>
    simp only [Machine.framedPayload, rpcPayload, List.cons_append, List.nil_append, Bool.false_eq_true, if_false,
      classify, verifyLen, hd]
    rw [if_neg (by simp; omega), if_neg (by simp)]
    rfl
  | true =>
    have hlast : (code :: BitVec.ofNat 8 data.length :: (data ++ [sum8 (code :: BitVec.ofNat 8 data.length :: data)])).getLast?
        = some (sum8 (code :: BitVec.ofNat 8 data.length :: data)) := by
      rw [← List.cons_append, ← List.cons_append, List.getLast?_concat]
    have hdrop : (code :: BitVec.ofNat 8 data.length :: (data ++ [sum8 (code :: BitVec.ofNat 8 data.length :: data)])).dropLast
        = code :: BitVec.ofNat 8 data.length :: data := by
      rw [← List.cons_append, ← List.cons_append, List.dropLast_concat]
    simp only [Machine.framedPayload, rpcPayload, List.cons_append, List.nil_append, if_true, classify, verifyLen, hd,
      hlast, hdrop]
    rw [if_neg (by simp; omega), if_neg (by simp)]
    rfl

/-- A framed payload, split at its declared data. -/
theorem framedPayload_eq (verify : Bool) (code : Byte) (data : List Byte) :
    ∃ tail, Machine.framedPayload verify code data = code :: BitVec.ofNat 8 data.length :: (data ++ tail)
      ∧ (verify = false → tail = []) := by
  cases verify with
  | false => exact ⟨[], by simp [Machine.framedPayload, rpcPayload], fun _ => rfl⟩
  | true => exact ⟨_, by simp [Machine.framedPayload, rpcPayload]; rfl, by simp⟩

end Sys2Proof
end

