-- ==== Sys2Proof/Laws/Invariant.lean ====
section
/-! SUPPORT. The invariants of R33 as propositions, and what they give. -/

namespace Sys2Proof.Machine

/-- INV1 to INV4 (R33), clause by clause. -/
structure Assertions (s : State) : Prop where
  inv1 : s.pos ≤ s.cfg.bufCap
  inv2 : ∀ i, i < s.pos → ∃ b, s.buf.read i = some b
  inv3_preamble : ∀ i, i < s.pos → i < 6 → s.buf.read i = Config.preamble[i]?
  inv3_version : 7 ≤ s.pos → s.buf.read 6 = some s.cfg.version
  inv4 : 9 ≤ s.pos → ∃ l : Byte, s.buf.read 8 = some l ∧ s.pos ≤ 9 + l.toNat

theorem assertions_iff (s : State) : s.assertions = true ↔ Assertions s := by
  have h4 : s.inv4 = true ↔ (9 ≤ s.pos → ∃ l : Byte, s.buf.read 8 = some l ∧ s.pos ≤ 9 + l.toNat) := by
    unfold State.inv4
    cases h : s.buf.read 8 with
    | none => simp
    | some l => simp; omega
  have h3 : s.inv3 = true ↔ (∀ i, i < s.pos → i < 6 → s.buf.read i = Config.preamble[i]?)
      ∧ (7 ≤ s.pos → s.buf.read 6 = some s.cfg.version) := by
    simp only [State.inv3, Bool.and_eq_true, List.all_eq_true, List.mem_range, decide_eq_true_eq, Bool.or_eq_true]
    refine and_congr ⟨fun h i h1 h2 => h i (by omega), fun h i hi => h i (by omega) (by omega)⟩
      ⟨fun h h7 => h.resolve_left (by omega), fun h => ?_⟩
    by_cases h7 : s.pos < 7
    · exact .inl h7
    · exact .inr (h (by omega))
  have h2 : s.inv2 = true ↔ ∀ i, i < s.pos → ∃ b, s.buf.read i = some b := by
    simp [State.inv2, Option.isSome_iff_exists]
  simp only [State.assertions, Bool.and_eq_true, decide_eq_true_eq, h2, h3, h4]
  exact ⟨fun ⟨⟨⟨a, b⟩, c⟩, d⟩ => ⟨a, b, c.1, c.2, d⟩, fun h => ⟨⟨⟨h.inv1, h.inv2⟩, h.inv3_preamble, h.inv3_version⟩, h.inv4⟩⟩

/-- The assertions hold at position 0, whatever the buffer holds (R121). -/
theorem assertions_of_pos_zero {s : State} (h : s.pos = 0) : s.assertions = true :=
  (assertions_iff s).mpr ⟨by omega, by omega, by omega, by omega, by omega⟩

/-- Below the cursor the whole buffer reads as a list of bytes (INV2). -/
theorem Assertions.body {s : State} (h : Assertions s) : ∃ body, bufReadRange s 0 s.pos = some body := by
  have key : ∀ n i, i + n ≤ s.pos → ∃ bs, bufReadRange s i n = some bs := by
    intro n
    induction n with
    | zero => exact fun i _ => ⟨[], rfl⟩
    | succ n ih =>
      intro i hi
      obtain ⟨b, hb⟩ := h.inv2 i (by omega)
      obtain ⟨bs, hbs⟩ := ih (i + 1) (by omega)
      exact ⟨b :: bs, by simp [bufReadRange, bufRead_of_lt (show i < s.pos by omega), hb, hbs]⟩
  exact key s.pos 0 (by omega)

/-- `ADVANCE` of a byte that the rules admit keeps the assertions. -/
theorem Assertions.advanced {s : State} {b : Byte} (h : Assertions s) (hcap : s.pos < s.cfg.bufCap) (hb : Admits s b) :
    Assertions (advanced b s) := by
  obtain ⟨hpre, hver, hpay⟩ := hb
  have hother : ∀ i, i ≠ s.pos → (s.buf.write s.pos b).read i = s.buf.read i := fun i hi => Memory.read_write_other _ _ hi
  constructor
  · simpa using hcap
  · intro i hi
    simp only [advanced_pos, advanced_buf] at hi ⊢
    by_cases hip : i = s.pos
    · exact ⟨b, by simp [hip]⟩
    · rw [hother i hip]
      exact h.inv2 i (by omega)
  · intro i hi h6
    simp only [advanced_pos, advanced_buf] at hi ⊢
    by_cases hip : i = s.pos
    · subst hip
      rw [Memory.read_write_same, hpre h6]
    · rw [hother i hip]
      exact h.inv3_preamble i (by omega) h6
  · intro h7
    simp only [advanced_pos, advanced_buf, advanced_cfg] at h7 ⊢
    by_cases h6 : s.pos = 6
    · rw [h6, Memory.read_write_same, hver h6]
    · rw [hother 6 (by omega)]
      exact h.inv3_version (by omega)
  · intro h9
    simp only [advanced_pos, advanced_buf] at h9 ⊢
    by_cases h8 : s.pos = 8
    · exact ⟨b, by rw [h8, Memory.read_write_same], by omega⟩
    · obtain ⟨l, hl, hle⟩ := hpay (by omega)
      rw [bufRead_of_lt (by omega)] at hl
      exact ⟨l, by rw [hother 8 (by omega)]; exact hl, by omega⟩

end Sys2Proof.Machine
end

