-- ==== Sys2Proof/Laws/PerInstr.lean ====
section
/-! SUPPORT. Statements for all instructions, one lemma per constructor. -/

namespace Sys2Proof.Laws.RoundTrip

/-- The encoding of a well-formed instruction decodes to it. -/
def Statement (i : Instr) : Prop := ∀ c : Config, i.wf c = true → decode c (encode i) = .instr i

theorem pre0 (b : Byte) : Statement (.pre0 b) := fun _ _ => rfl
theorem pre1 (b : Byte) : Statement (.pre1 b) := fun _ _ => rfl
theorem pre2 (b : Byte) : Statement (.pre2 b) := fun _ _ => rfl
theorem pre3 (b : Byte) : Statement (.pre3 b) := fun _ _ => rfl
theorem pre4 (b : Byte) : Statement (.pre4 b) := fun _ _ => rfl
theorem pre5 (b : Byte) : Statement (.pre5 b) := fun _ _ => rfl
theorem ver (b : Byte) : Statement (.ver b) := fun _ _ => rfl
theorem typeByte (b : Byte) : Statement (.typeByte b) := fun _ _ => rfl
theorem lenByte (b : Byte) : Statement (.lenByte b) := fun _ _ => rfl
theorem pay (b : Byte) : Statement (.pay b) := fun _ _ => rfl

/-- The sum in the encoding of `CSUM.BAD` differs from its byte. -/
theorem csumBad (b : Byte) : Statement (.csumBad b) := by
  intro c _
  have h : b ≠ b + 1#8 := by bv_omega
  simp [decode, encode, decodeByte, Stimulus.feed, h]

theorem csumRpc (b : Byte) : Statement (.csumRpc b) := by
  intro c _
  simp [decode, encode, decodeByte, Stimulus.feed]

theorem csumOther (b : Byte) : Statement (.csumOther b) := by
  intro c _
  simp [decode, encode, decodeByte, Stimulus.feed, Config.typeRpcCommand]

theorem idle : Statement .idle := fun _ _ => rfl
theorem reset : Statement .reset := fun _ _ => rfl

/-- A decoder row whose operands the decoder puts in that row. -/
theorem of_classify {row : DecoderRow} {p : List Byte} {verify : Bool} {c : Config} {i : Instr}
    (hi : i = row.toInstr p verify) (henc : (encode i).stim = .decode p verify) (h : classify c p verify = row) :
    decode c (encode i) = .instr i := by
  unfold decode
  rw [henc]
  simp [h, hi]

theorem decShort (p : List Byte) (v : Bool) : Statement (.decShort p v) := fun _ h =>
  of_classify (row := .short) rfl rfl (of_decide_eq_true h)
theorem decDlen (p : List Byte) (v : Bool) : Statement (.decDlen p v) := fun _ h =>
  of_classify (row := .dlen) rfl rfl (of_decide_eq_true h)
theorem decBadsum (p : List Byte) (v : Bool) : Statement (.decBadsum p v) := fun _ h =>
  of_classify (row := .badsum) rfl rfl (of_decide_eq_true h)
theorem wifiSettings (p : List Byte) (v : Bool) : Statement (.wifiSettings p v) := fun _ h =>
  of_classify (row := .wifiSettings) rfl rfl (of_decide_eq_true h)
theorem wifiSettingsOverrun (p : List Byte) (v : Bool) : Statement (.wifiSettingsOverrun p v) := fun _ h =>
  of_classify (row := .wifiSettingsOverrun) rfl rfl (of_decide_eq_true h)
theorem getCurrentState (p : List Byte) (v : Bool) : Statement (.getCurrentState p v) := fun _ h =>
  of_classify (row := .getCurrentState) rfl rfl (of_decide_eq_true h)
theorem getDeviceInfo (p : List Byte) (v : Bool) : Statement (.getDeviceInfo p v) := fun _ h =>
  of_classify (row := .getDeviceInfo) rfl rfl (of_decide_eq_true h)
theorem getWifiNetworks (p : List Byte) (v : Bool) : Statement (.getWifiNetworks p v) := fun _ h =>
  of_classify (row := .getWifiNetworks) rfl rfl (of_decide_eq_true h)
theorem otherCode (p : List Byte) (v : Bool) : Statement (.otherCode p v) := fun _ h =>
  of_classify (row := .other) rfl rfl (of_decide_eq_true h)

end Sys2Proof.Laws.RoundTrip
end

