-- ==== Sys2Proof/Tests/Slice0.lean ====
section
/-! SUPPORT. The model's own tests: expected results are the spec's encodings, worked examples and vectors (95_test_vectors.md); and a
witness for the hypotheses of each statement. -/

namespace Sys2Proof.Tests

open Sys2Proof Sys2Proof.Machine

/-- The default configuration with a value for the open code `g` of 95_test_vectors.md. -/
def cfgG : Config := { Config.default with codeGetWifiNetworks := some 0x05#8 }

/-- The configuration of V18: a buffer of 16 bytes. -/
def cfg16 : Config := { cfgG with bufCap := 16 }

/-- A receiver that has accepted the bytes, about to be presented the stimuli. -/
def after (c : Config) (bytes : List Byte) (inq : List Stimulus) : State :=
  { State.reset with cfg := c, pos := bytes.length, buf := Memory.writeAll [] 0 bytes, inq := inq }

/-- Preamble and version. -/
def hdr : List Byte := [0x49#8, 0x4D#8, 0x50#8, 0x52#8, 0x4F#8, 0x56#8, 0x01#8]

/-- The cursor and the outputs after an outcome. -/
def seen (r : Result) : Option (Nat × Acc × Event) :=
  match r with
  | .next t => some (t.pos, t.acc, t.ev)
  | .fault _ => none
  | .refused _ => none

/-- The decoder's answer after an outcome. -/
def answerOf (r : Result) : Option Verdict :=
  match r with
  | .next t => t.dec
  | .fault _ => none
  | .refused _ => none

/-- One byte fed after the bytes. -/
def feedAfter (bytes : List Byte) (b : Byte) : Option (Nat × Acc × Event) := seen (step (after cfgG bytes [.feed b]))

/-- One call of the decoder, as a step. -/
def call (p : List Byte) (verify : Bool) : Option Verdict := answerOf (step (after cfgG [] [.decode p verify]))

/-! ### Decoding: a word of each row, from the `select` column of the opcode table and R65, R74 -/

def ctxAt (pos : Nat) (l t x : Byte) : Context := ⟨pos, some l, some t, some x⟩

theorem test_decode_pre0 : decode cfgG ⟨.header 0, .feed 0x49#8⟩ = .instr (.pre0 0x49#8) := by decide
theorem test_decode_pre1 : decode cfgG ⟨.header 1, .feed 0x4D#8⟩ = .instr (.pre1 0x4D#8) := by decide
theorem test_decode_pre2 : decode cfgG ⟨.header 2, .feed 0x50#8⟩ = .instr (.pre2 0x50#8) := by decide
theorem test_decode_pre3 : decode cfgG ⟨.header 3, .feed 0x52#8⟩ = .instr (.pre3 0x52#8) := by decide
theorem test_decode_pre4 : decode cfgG ⟨.header 4, .feed 0x4F#8⟩ = .instr (.pre4 0x4F#8) := by decide
theorem test_decode_pre5 : decode cfgG ⟨.header 5, .feed 0x56#8⟩ = .instr (.pre5 0x56#8) := by decide
theorem test_decode_ver : decode cfgG ⟨.header 6, .feed 0x01#8⟩ = .instr (.ver 0x01#8) := by decide
theorem test_decode_type : decode cfgG ⟨.header 7, .feed 0x03#8⟩ = .instr (.typeByte 0x03#8) := by decide
theorem test_decode_len : decode cfgG ⟨.header 8, .feed 0xFF#8⟩ = .instr (.lenByte 0xFF#8) := by decide
/-- The last payload position, `8 + L`. -/
theorem test_decode_pay : decode cfgG ⟨ctxAt 10 0x02#8 0x03#8 0xE7#8, .feed 0x04#8⟩ = .instr (.pay 0x04#8) := by decide
/-- V5. -/
theorem test_decode_csum_bad : decode cfgG ⟨ctxAt 11 0x02#8 0x03#8 0xE7#8, .feed 0xE8#8⟩ = .instr (.csumBad 0xE8#8) := by decide
/-- V1. -/
theorem test_decode_csum_rpc : decode cfgG ⟨ctxAt 11 0x02#8 0x03#8 0xE7#8, .feed 0xE7#8⟩ = .instr (.csumRpc 0xE7#8) := by decide
/-- V8. -/
theorem test_decode_csum_other : decode cfgG ⟨ctxAt 10 0x01#8 0x01#8 0xE2#8, .feed 0xE2#8⟩ = .instr (.csumOther 0xE2#8) := by decide
/-- R120. -/
theorem test_decode_beyond : decode cfgG ⟨ctxAt 12 0x02#8 0x03#8 0xE7#8, .feed 0xE7#8⟩ = .reject .invariantBroken := by decide
theorem test_decode_idle : decode cfgG ⟨.header 4, .ports false none⟩ = .instr .idle := by decide
/-- R26: a byte on `in` is ignored. -/
theorem test_decode_reset : decode cfgG ⟨.header 4, .ports true (some 0x52#8)⟩ = .instr .reset := by decide
/-- DV2. -/
theorem test_decode_short : decode cfgG ⟨.header 0, .decode [0x04#8] false⟩ = .instr (.decShort [0x04#8] false) := by decide
/-- DV4. -/
theorem test_decode_dlen : decode cfgG ⟨.header 0, .decode [0x04#8, 0x00#8] true⟩ = .instr (.decDlen [0x04#8, 0x00#8] true) := by decide
/-- DV6. -/
theorem test_decode_badsum :
    decode cfgG ⟨.header 0, .decode [0x04#8, 0x00#8, 0x05#8] true⟩ = .instr (.decBadsum [0x04#8, 0x00#8, 0x05#8] true) := by decide
/-- DV14. -/
theorem test_decode_wifi :
    decode cfgG ⟨.header 0, .decode [0x01#8, 0x05#8, 0x01#8, 0x41#8, 0x01#8, 0x42#8, 0xFF#8] false⟩
      = .instr (.wifiSettings [0x01#8, 0x05#8, 0x01#8, 0x41#8, 0x01#8, 0x42#8, 0xFF#8] false) := by decide
/-- DV13. -/
theorem test_decode_overrun :
    decode cfgG ⟨.header 0, .decode [0x01#8, 0x03#8, 0x05#8, 0x61#8, 0x62#8] false⟩
      = .instr (.wifiSettingsOverrun [0x01#8, 0x03#8, 0x05#8, 0x61#8, 0x62#8] false) := by decide
/-- DV12. -/
theorem test_decode_gcs :
    decode cfgG ⟨.header 0, .decode [0x02#8, 0x00#8, 0x02#8] true⟩ = .instr (.getCurrentState [0x02#8, 0x00#8, 0x02#8] true) := by decide
/-- DV3. -/
theorem test_decode_gdi :
    decode cfgG ⟨.header 0, .decode [0x04#8, 0x00#8] false⟩ = .instr (.getDeviceInfo [0x04#8, 0x00#8] false) := by decide
/-- DV16, with `g` = 05. -/
theorem test_decode_gwn :
    decode cfgG ⟨.header 0, .decode [0x05#8, 0x00#8] false⟩ = .instr (.getWifiNetworks [0x05#8, 0x00#8] false) := by decide
/-- DV15. -/
theorem test_decode_other :
    decode cfgG ⟨.header 0, .decode [0x7E#8, 0x00#8] false⟩ = .instr (.otherCode [0x7E#8, 0x00#8] false) := by decide

/-- Words of the opcode table. -/
theorem test_table_pre1 : decodeTableWord 8 0x4D = some (.pre1 0x4D#8) := by decide
theorem test_table_device_info : decodeTableWord 8 0x04 = some (.getDeviceInfo [0x04#8, 0x00#8] false) := by decide

/-- A word placed where the next step fetches it runs there (R103: `pos = 1`, `FEED(0x4D)` gives `pos = 2`). -/
theorem test_fetch_pre1 : seen (step (State.reset.withFetchWord 8 0x4D)) = some (2, .accept, .none) := by decide
theorem test_fetch_pre5 : seen (step (State.reset.withFetchWord 8 0x56)) = some (6, .accept, .none) := by decide
theorem test_fetch_device_info :
    answerOf (step (State.reset.withFetchWord 8 0x04)) = some (.command .getDeviceInfo) := by decide

/-! ### Well-formedness: an ill-formed term for each check -/

theorem test_config_default_wf : Config.default.wf = true := by decide
theorem test_config_capacity : Config.wf { cfgG with bufCap := 8 } = false := by decide
theorem test_config_wifi_state : Config.wf { cfgG with codeWifiSettings := 0x02#8 } = false := by decide
theorem test_config_wifi_info : Config.wf { cfgG with codeWifiSettings := 0x04#8 } = false := by decide
theorem test_config_state_info : Config.wf { cfgG with codeGetCurrentState := 0x04#8 } = false := by decide
theorem test_config_networks_wifi : Config.wf { cfgG with codeGetWifiNetworks := some 0x01#8 } = false := by decide
theorem test_config_networks_state : Config.wf { cfgG with codeGetWifiNetworks := some 0x02#8 } = false := by decide
/-- V4: `g = 0x04` is ill-formed. -/
theorem test_config_networks_info : Config.wf { cfgG with codeGetWifiNetworks := some 0x04#8 } = false := by decide
theorem test_wf_short : Instr.wf cfgG (.decShort [0x04#8, 0x00#8] false) = false := by decide
theorem test_wf_dlen : Instr.wf cfgG (.decDlen [0x04#8, 0x00#8] false) = false := by decide
theorem test_wf_badsum : Instr.wf cfgG (.decBadsum [0x04#8, 0x00#8, 0x04#8] true) = false := by decide
theorem test_wf_wifi : Instr.wf cfgG (.wifiSettings [0x01#8, 0x00#8] false) = false := by decide
theorem test_wf_overrun : Instr.wf cfgG (.wifiSettingsOverrun [0x01#8, 0x02#8, 0x00#8, 0x00#8] false) = false := by decide
theorem test_wf_gcs : Instr.wf cfgG (.getCurrentState [0x04#8, 0x00#8] false) = false := by decide
theorem test_wf_gdi : Instr.wf cfgG (.getDeviceInfo [0x02#8, 0x00#8] false) = false := by decide
theorem test_wf_gwn : Instr.wf cfgG (.getWifiNetworks [0x06#8, 0x00#8] false) = false := by decide
theorem test_wf_other : Instr.wf cfgG (.otherCode [0x05#8, 0x00#8] false) = false := by decide

/-! ### Frame receiver: the examples of R101 to R114, and vectors -/

theorem test_pre0_reject : feedAfter [] 0x00#8 = some (0, .reject, .none) := by decide
/-- V10: the second `I` is rejected, not taken as a start. -/
theorem test_pre1_reject_i : feedAfter [0x49#8] 0x49#8 = some (0, .reject, .none) := by decide
theorem test_pre3_case : feedAfter [0x49#8, 0x4D#8, 0x50#8] 0x72#8 = some (0, .reject, .none) := by decide
theorem test_pre4_digit : feedAfter [0x49#8, 0x4D#8, 0x50#8, 0x52#8] 0x30#8 = some (0, .reject, .none) := by decide
theorem test_ver_accept : feedAfter (hdr.take 6) 0x01#8 = some (7, .accept, .none) := by decide
theorem test_ver_reject : feedAfter (hdr.take 6) 0x02#8 = some (0, .reject, .none) := by decide
theorem test_type_any : feedAfter hdr 0xFF#8 = some (8, .accept, .none) := by decide
theorem test_len : feedAfter (hdr ++ [0x03#8]) 0x02#8 = some (9, .accept, .none) := by decide
theorem test_pay : feedAfter (hdr ++ [0x03#8, 0x02#8]) 0x04#8 = some (10, .accept, .none) := by decide
/-- V18: position 16 with `BUF_CAP = 16`. -/
theorem test_pay_overflow :
    seen (step (after cfg16 (hdr ++ [0x03#8, 0x0C#8, 0x7E#8, 0x0A#8, 0#8, 0#8, 0#8, 0#8, 0#8]) [.feed 0#8]))
      = some (0, .reject, .none) := by decide
/-- V5. -/
theorem test_csum_bad :
    feedAfter (hdr ++ [0x03#8, 0x02#8, 0x04#8, 0x00#8]) 0xE8#8 = some (0, .reject, .err .invalidRpc) := by decide
/-- V23: also for a frame that is no rpc-command. -/
theorem test_csum_bad_type1 : feedAfter (hdr ++ [0x01#8, 0x01#8, 0x02#8]) 0xE3#8 = some (0, .reject, .err .invalidRpc) := by decide
/-- V1. -/
theorem test_csum_rpc :
    feedAfter (hdr ++ [0x03#8, 0x02#8, 0x04#8, 0x00#8]) 0xE7#8 = some (0, .accept, .cmd .getDeviceInfo) := by decide
/-- V2. -/
theorem test_csum_rpc_wifi :
    feedAfter (hdr ++ [0x03#8, 0x0E#8, 0x01#8, 0x0C#8, 0x04#8, 0x68#8, 0x6F#8, 0x6D#8, 0x65#8, 0x06#8, 0x73#8, 0x65#8, 0x63#8, 0x72#8,
        0x65#8, 0x74#8]) 0x35#8
      = some (0, .accept, .cmd (.wifiSettings [0x68#8, 0x6F#8, 0x6D#8, 0x65#8] [0x73#8, 0x65#8, 0x63#8, 0x72#8, 0x65#8, 0x74#8])) := by
  decide
/-- V16: the sum wraps modulo 256. -/
theorem test_csum_other_wraps : feedAfter (hdr ++ [0x02#8, 0x02#8, 0x80#8, 0x80#8]) 0xE2#8 = some (0, .accept, .none) := by decide
/-- V19: an undefined type completes silently; `L = 0`. -/
theorem test_csum_other_type0 : feedAfter (hdr ++ [0x00#8, 0x00#8]) 0xDE#8 = some (0, .accept, .none) := by decide
/-- V24. -/
theorem test_idle : seen (step (after cfgG [0x49#8, 0x4D#8] [.noByte])) = some (2, .none, .none) := by decide
/-- V32: a reset in the middle of a frame; a byte on `in` is ignored. -/
theorem test_reset :
    seen (step (after cfgG [0x49#8, 0x4D#8, 0x50#8] [.ports true (some 0x52#8)])) = some (0, .none, .none) := by decide

/-! ### Command decoder: the function-level vectors, and the receiver's use of them -/

/-- DV1. -/
theorem test_call_short : call [] false = some (.command .unknown) := by decide
/-- DV7: integer arithmetic. -/
theorem test_call_dlen : call [0x04#8, 0xFF#8] true = some (.command .unknown) := by decide
/-- DV9. -/
theorem test_call_badsum : call [0x01#8, 0x03#8, 0x01#8, 0x41#8, 0x00#8, 0x47#8] true = some (.command .badChecksum) := by decide
/-- DV8. -/
theorem test_call_wifi :
    call [0x01#8, 0x03#8, 0x01#8, 0x41#8, 0x00#8, 0x46#8] true = some (.command (.wifiSettings [0x41#8] [])) := by decide
/-- DV14: what follows the password is ignored. -/
theorem test_call_wifi_trailing :
    call [0x01#8, 0x05#8, 0x01#8, 0x41#8, 0x01#8, 0x42#8, 0xFF#8] false = some (.command (.wifiSettings [0x41#8] [0x42#8])) := by decide
/-- DV10: the bound is the declared data, not the payload. -/
theorem test_call_overrun : call [0x01#8, 0x01#8, 0x05#8, 0x07#8] true = some .malformed := by decide
/-- V27: `D = 1`, `S = 0`, no `P` byte. -/
theorem test_call_overrun_no_p : call [0x01#8, 0x01#8, 0x00#8] false = some .malformed := by decide
/-- V29: data is ignored. -/
theorem test_call_gcs : call [0x02#8, 0x01#8, 0x7F#8] false = some (.command .getCurrentState) := by decide
/-- DV5. -/
theorem test_call_gdi : call [0x04#8, 0x00#8, 0x04#8] true = some (.command .getDeviceInfo) := by decide
/-- DV16. -/
theorem test_call_gwn : call [0x05#8, 0x00#8] false = some (.command .getWifiNetworks) := by decide
/-- V30, V31. -/
theorem test_call_other_00 : call [0x00#8, 0x00#8] false = some (.command (.other 0x00#8)) := by decide
theorem test_call_other_ff : call [0xFF#8, 0x00#8] false = some (.command (.other 0xFF#8)) := by decide
/-- V9: `L = 0`. -/
theorem test_rpc_empty : feedAfter (hdr ++ [0x03#8, 0x00#8]) 0xE1#8 = some (0, .accept, .cmd .unknown) := by decide
/-- V12: the receiver turns an overrun into an error event. -/
theorem test_rpc_overrun :
    feedAfter (hdr ++ [0x03#8, 0x05#8, 0x01#8, 0x03#8, 0x05#8, 0x61#8, 0x62#8]) 0xB2#8 = some (0, .accept, .err .invalidRpc) := by decide
/-- R206: a command event of `Other`. -/
theorem test_port_other :
    encodeEvent cfgG (.cmd (.other 0x7E#8)) (some 0x7E#8)
      = ⟨0b10#2, none, some 6#3, some 0x7E#8, none, none, none, none⟩ := by decide

/-! ### Witnesses: each statement's hypotheses are met -/

/-- V1 before its checksum byte. -/
def v1 : List Byte := hdr ++ [0x03#8, 0x02#8, 0x04#8, 0x00#8]

/-- V8 before its checksum byte. -/
def v8 : List Byte := hdr ++ [0x01#8, 0x01#8, 0x02#8]

theorem at_checksum_of {c : Config} {body : List Byte} {inq : List Stimulus} {l : Byte}
    (h : bufReadRange (after c body inq) 0 body.length = some body) (h8 : body[8]? = some l)
    (hlen : body.length = 9 + l.toNat) : AtChecksum (after c body inq) body := ⟨h, l, h8, hlen⟩

/-- A state at the checksum position of an rpc-command frame with the given payload, and its right checksum byte. -/
theorem completes_of {c : Config} {p : List Byte} {l : Byte}
    (h : bufReadRange (after c (hdr ++ [0x03#8, l] ++ p) []) 0 (hdr ++ [0x03#8, l] ++ p).length = some (hdr ++ [0x03#8, l] ++ p))
    (hlen : p.length = l.toNat) :
    CompletesRpc (after c (hdr ++ [0x03#8, l] ++ p) []) (sum8 (hdr ++ [0x03#8, l] ++ p)) p :=
  ⟨_, at_checksum_of h rfl (by simp [hdr, hlen]; omega), rfl, rfl, rfl⟩

theorem witness_reset_step : cfgG.wf = true ∧ (after cfgG [0x49#8] [.ports true (some 0x49#8)]).inq = [.ports true (some 0x49#8)] := by
  decide

/-- Refused at the boundary `BUF_CAP = 8`, run at 9. -/
theorem witness_refused_config :
    step (after { cfgG with bufCap := 8 } [] []) = .refused .illFormedConfig
      ∧ seen (step (after { cfgG with bufCap := 9 } [] [])) = some (0, .none, .none) := ⟨rfl, rfl⟩

theorem witness_step_next : ∃ t, step (after cfgG [] [.feed 0x49#8]) = .next t ∧ t.pos = 1 := ⟨_, rfl, rfl⟩

theorem witness_decode_encode_wf :
    Instr.wf cfgG (.getDeviceInfo [0x04#8, 0x00#8] false) = true
      ∧ decode cfgG ⟨.header 3, .decode [0x04#8, 0x00#8] false⟩ = .instr (.getDeviceInfo [0x04#8, 0x00#8] false) := by decide

/-- The classes at their boundaries: the last header position, the last payload position, both sides of the checksum. -/
theorem witness_classes :
    (after cfgG (hdr ++ [0x03#8]) []).assertions = true
      ∧ (after cfgG (hdr ++ [0x03#8, 0x02#8, 0x04#8]) []).assertions = true ∧ (after cfgG v1 []).assertions = true
      ∧ (after cfgG v8 []).assertions = true ∧ (after cfgG [] []).assertions = true := by decide

theorem witness_step_runs :
    (after cfgG v1 [.feed 0xE7#8]).assertions = true
      ∧ decode cfgG ⟨(after cfgG v1 [.feed 0xE7#8]).context, .feed 0xE7#8⟩ = .instr (.csumRpc 0xE7#8)
      ∧ (after cfgG v1 []).inq = [] := by decide

theorem witness_frame_lengths : ([] : List Byte).length ≤ 255 ∧ (List.replicate 255 0xFF#8).length ≤ 255 :=
  ⟨Nat.zero_le _, Nat.le_of_eq List.length_replicate⟩

theorem witness_wifi_lengths : (List.replicate 251 0x41#8).length + ([] : List Byte).length ≤ 251 := by
  rw [List.length_replicate]; decide

theorem witness_preamble_positions :
    cfgG.wf = true ∧ ∀ row ∈ preambleRows, (after cfgG (hdr.take row.2.1) []).pos = row.2.1 := by decide

/-- Both clauses: the version byte, and another. -/
theorem witness_version : (after cfgG (hdr.take 6) []).pos = 6 ∧ 0x01#8 = cfgG.version ∧ 0x02#8 ≠ cfgG.version := by decide

theorem witness_type_length : (after cfgG hdr []).pos = 7 ∧ (after cfgG (hdr ++ [0x03#8]) []).pos = 8 := by decide

/-- The last payload position with room, and the position at the end of a buffer of 16. -/
theorem witness_payload :
    (bufRead (after cfgG (hdr ++ [0x03#8, 0x02#8, 0x04#8]) []) 8 = some 0x02#8 ∧ 10 ≤ 8 + (0x02#8).toNat ∧ 10 < cfgG.bufCap)
      ∧ bufRead (after cfg16 (hdr ++ [0x03#8, 0x0C#8, 0#8, 0#8, 0#8, 0#8, 0#8, 0#8, 0#8]) []) 8 = some 0x0C#8
      ∧ 16 ≤ 8 + (0x0C#8).toNat ∧ cfg16.bufCap ≤ 16 := by decide

theorem inv_of_bools {s : State}
    (h : (s.cfg.wf && s.buf.wf && s.buf.within s.cfg.bufCap && s.assertions) = true) : s.Inv := by
  simp only [Bool.and_eq_true] at h
  exact ⟨h.1.1.1, h.1.1.2, h.1.2, h.2⟩

theorem witness_inv_mid_frame : (after cfgG v1 []).Inv := inv_of_bools (by decide)

theorem witness_no_overflow :
    (after cfgG (hdr ++ [0x03#8, 0x01#8]) [.feed 0x04#8]).Inv ∧ 264 ≤ cfgG.bufCap
      ∧ bufRead (after cfgG (hdr ++ [0x03#8, 0x01#8]) [.feed 0x04#8]) 8 = some 0x01#8 ∧ 9 ≤ 8 + (0x01#8).toNat :=
  ⟨inv_of_bools (by decide), by decide⟩

theorem witness_second_start :
    (after cfgG [0x49#8] (feeds Config.preamble ++ [])).Inv ∧ (after cfgG [0x49#8] (feeds Config.preamble ++ [])).pos = 1 :=
  ⟨inv_of_bools (by decide), rfl⟩

/-- The shortest frame (`L = 0`) and a longer one, of different types. -/
theorem witness_wrong_checksum :
    (AtChecksum (after cfgG (hdr ++ [0x00#8, 0x00#8]) []) (hdr ++ [0x00#8, 0x00#8]) ∧ 0xDF#8 ≠ sum8 (hdr ++ [0x00#8, 0x00#8]))
      ∧ AtChecksum (after cfgG v1 []) v1 ∧ 0xE8#8 ≠ sum8 v1 :=
  ⟨⟨at_checksum_of (l := 0x00#8) rfl rfl rfl, by decide⟩, at_checksum_of (l := 0x02#8) rfl rfl rfl, by decide⟩

/-- An empty payload and a payload with bytes. -/
theorem witness_completes_rpc :
    CompletesRpc (after cfgG (hdr ++ [0x03#8, 0x00#8] ++ []) []) (sum8 (hdr ++ [0x03#8, 0x00#8] ++ [])) []
      ∧ CompletesRpc (after cfgG (hdr ++ [0x03#8, 0x02#8] ++ [0x04#8, 0x00#8]) [])
          (sum8 (hdr ++ [0x03#8, 0x02#8] ++ [0x04#8, 0x00#8])) [0x04#8, 0x00#8] :=
  ⟨completes_of rfl rfl, completes_of rfl rfl⟩

theorem witness_other_frame : AtChecksum (after cfgG v8 []) v8 ∧ v8[7]? ≠ some Config.typeRpcCommand :=
  ⟨at_checksum_of (l := 0x01#8) rfl rfl rfl, by decide⟩

/-- V21: one byte. -/
theorem witness_short :
    [0x04#8].length < 2 ∧ CompletesRpc (after cfgG (hdr ++ [0x03#8, 0x01#8] ++ [0x04#8]) [])
      (sum8 (hdr ++ [0x03#8, 0x01#8] ++ [0x04#8])) [0x04#8] := ⟨by decide, completes_of rfl rfl⟩

/-- V13 for the receiver, DV4 for verify mode. -/
theorem witness_dlen :
    (((0x01#8).toNat : Int) ≠ (([0x04#8, 0x01#8] : List Byte).length : Int) - 2
        ∧ CompletesRpc (after cfgG (hdr ++ [0x03#8, 0x02#8] ++ [0x04#8, 0x01#8]) [])
            (sum8 (hdr ++ [0x03#8, 0x02#8] ++ [0x04#8, 0x01#8])) [0x04#8, 0x01#8])
      ∧ ((0x00#8).toNat : Int) ≠ (([0x04#8, 0x00#8] : List Byte).length : Int) - 2 - (if true then 1 else 0) :=
  ⟨⟨by decide, completes_of rfl rfl⟩, by decide⟩

/-- DV6. -/
theorem witness_badsum : ([] : List Byte).length ≤ 255 ∧ 0x05#8 ≠ sum8 (rpcPayload 0x04#8 []) := by decide

/-- V25, and the empty strings of V22. -/
theorem witness_wifi :
    CompletesRpc (after cfgG (hdr ++ [0x03#8, 0x07#8] ++ framedPayload false cfgG.codeWifiSettings (wifiData [0x41#8] [0x42#8] [0xFF#8])) [])
        (sum8 (hdr ++ [0x03#8, 0x07#8] ++ framedPayload false cfgG.codeWifiSettings (wifiData [0x41#8] [0x42#8] [0xFF#8])))
        (framedPayload false cfgG.codeWifiSettings (wifiData [0x41#8] [0x42#8] [0xFF#8]))
      ∧ CompletesRpc (after cfgG (hdr ++ [0x03#8, 0x04#8] ++ framedPayload false cfgG.codeWifiSettings (wifiData [] [] [])) [])
        (sum8 (hdr ++ [0x03#8, 0x04#8] ++ framedPayload false cfgG.codeWifiSettings (wifiData [] [] [])))
        (framedPayload false cfgG.codeWifiSettings (wifiData [] [] [])) := ⟨completes_of rfl rfl, completes_of rfl rfl⟩

/-- The three forms of an overrun, each at its boundary (V26, V27, and a password one byte short). -/
theorem witness_overrun :
    Overruns [] ∧ Overruns [0x00#8] ∧ Overruns [0x01#8, 0x41#8, 0x01#8]
      ∧ CompletesRpc (after cfgG (hdr ++ [0x03#8, 0x02#8] ++ framedPayload false cfgG.codeWifiSettings []) [])
          (sum8 (hdr ++ [0x03#8, 0x02#8] ++ framedPayload false cfgG.codeWifiSettings []))
          (framedPayload false cfgG.codeWifiSettings []) :=
  ⟨.inl rfl, .inr (.inl ⟨_, [], rfl, by decide⟩), .inr (.inr ⟨0x01#8, [0x41#8], 0x01#8, [], rfl, rfl, by decide⟩), completes_of rfl rfl⟩

theorem witness_fieldless :
    cfgG.wf = true ∧ ∀ row ∈ fieldlessRows cfgG, (after cfgG (hdr ++ [0x03#8, 0x02#8] ++ framedPayload false row.2.1 []) []).pos = 11 := by
  decide

theorem witness_fieldless_completes :
    CompletesRpc (after cfgG (hdr ++ [0x03#8, 0x02#8] ++ framedPayload false 0x05#8 []) [])
      (sum8 (hdr ++ [0x03#8, 0x02#8] ++ framedPayload false 0x05#8 [])) (framedPayload false 0x05#8 []) := completes_of rfl rfl

theorem witness_other_code :
    (0x7E#8 ≠ cfgG.codeWifiSettings ∧ 0x7E#8 ≠ cfgG.codeGetCurrentState ∧ 0x7E#8 ≠ cfgG.codeGetDeviceInfo ∧ 0x7E#8 ≠ cfgG.wifiNetworksCode)
      ∧ CompletesRpc (after cfgG (hdr ++ [0x03#8, 0x02#8] ++ framedPayload false 0x7E#8 []) [])
          (sum8 (hdr ++ [0x03#8, 0x02#8] ++ framedPayload false 0x7E#8 [])) (framedPayload false 0x7E#8 []) :=
  ⟨by decide, completes_of rfl rfl⟩

theorem witness_row_next : ∃ t, exec (DecoderRow.getDeviceInfo.toInstr [0x04#8, 0x00#8] false) (after cfgG [0x49#8] []) = .next t :=
  ⟨_, rfl⟩

/-- Another configuration with the same four codes. -/
theorem witness_same_codes :
    cfg16 ≠ cfgG ∧ cfg16.codeWifiSettings = cfgG.codeWifiSettings ∧ cfg16.codeGetCurrentState = cfgG.codeGetCurrentState
      ∧ cfg16.codeGetDeviceInfo = cfgG.codeGetDeviceInfo ∧ cfg16.wifiNetworksCode = cfgG.wifiNetworksCode := by decide

/-- A command event with a byte 0, one without, and an error event. -/
theorem witness_command_code :
    (∃ t, exec (.csumRpc 0xE7#8) (after cfgG v1 []) = .next t ∧ t.ev = .cmd .getDeviceInfo)
      ∧ (∃ t, exec (.csumRpc 0xE1#8) (after cfgG (hdr ++ [0x03#8, 0x00#8]) []) = .next t ∧ t.ev = .cmd .unknown)
      ∧ ∃ t, exec (.csumRpc 0xE4#8) (after cfgG (hdr ++ [0x03#8, 0x02#8, 0x01#8, 0x00#8]) []) = .next t ∧ t.ev = .err .invalidRpc :=
  ⟨⟨_, rfl, rfl⟩, ⟨_, rfl, rfl⟩, ⟨_, rfl, rfl⟩⟩

/-- Both sides of the read's and the write's condition at the cursor. -/
theorem witness_read_write :
    bufRead (after cfgG hdr []) 6 = some 0x01#8 ∧ (after cfgG hdr []).pos ≤ 7 ∧ (7 : Nat) = (after cfgG hdr []).pos ∧ 7 < cfgG.bufCap := by
  decide

theorem witness_store :
    ∃ t, step (after cfgG hdr [.feed 0x03#8]) = .next t ∧ t.buf.read 7 = some 0x03#8
      ∧ (after cfgG hdr [.feed 0x03#8]).buf.read 7 = none := ⟨_, rfl, rfl, rfl⟩

/-- A step of each kind: `FEED`, `IDLE`, `RESET`; and the cursor at its upper end in a buffer of 9. -/
theorem witness_cursor :
    (∃ t, step (after cfgG hdr [.feed 0x03#8]) = .next t) ∧ (∃ t, step (after cfgG hdr [.noByte]) = .next t)
      ∧ (∃ t, step (after cfgG hdr [.rst]) = .next t) ∧ (after { cfgG with bufCap := 9 } (hdr ++ [0x03#8, 0x01#8]) []).Inv :=
  ⟨⟨_, rfl⟩, ⟨_, rfl⟩, ⟨_, rfl⟩, inv_of_bools (by decide)⟩

theorem witness_event_at_checksum :
    ∃ t, step (after cfgG v1 [.feed 0xE7#8]) = .next t ∧ t.ev ≠ .none := ⟨_, rfl, by decide⟩

theorem witness_signals :
    (∃ t, step (after cfgG v1 [.feed 0xE8#8]) = .next t ∧ t.ev = .err .invalidRpc)
      ∧ decodeCommand cfgG [0x04#8, 0x00#8, 0x05#8] true = .command .badChecksum := ⟨⟨_, rfl, rfl⟩, by decide⟩

theorem witness_reject_and_event :
    (∃ t, step (after cfgG [0x49#8] [.feed 0x49#8]) = .next t ∧ t.acc = .reject)
      ∧ ∃ t, step (after cfgG v1 [.feed 0xE7#8]) = .next t ∧ t.ev ≠ .none := ⟨⟨_, rfl, rfl⟩, ⟨_, rfl, by decide⟩⟩

theorem witness_invariant_step :
    (after cfgG v1 [.feed 0xE7#8]).Inv ∧ ∃ t, step (after cfgG v1 [.feed 0xE7#8]) = .next t := ⟨inv_of_bools (by decide), ⟨_, rfl⟩⟩

theorem witness_listing :
    cfgG.wf = true ∧ (after cfgG v1 [.feed 0xE7#8]).assertions = true ∧ (after cfgG v1 [.feed 0xE7#8]).inq = [.ports false (some 0xE7#8)] := by
  decide

/-- Two states that differ in a stale byte, at cursor 0 and at cursor 1. -/
theorem witness_stale :
    AgreeBelowCursor { after cfgG [] [] with buf := [(3, 0x11#8)] } { after cfgG [] [] with buf := [(3, 0x22#8)] }
      ∧ AgreeBelowCursor { after cfgG [0x49#8] [] with buf := [(0, 0x49#8), (3, 0x11#8)] } (after cfgG [0x49#8] []) := by
  refine ⟨⟨rfl, rfl, rfl, rfl, fun a ha => absurd ha (Nat.not_lt_zero a)⟩, ⟨rfl, rfl, rfl, rfl, fun a ha => ?_⟩⟩
  obtain rfl : a = 0 := Nat.lt_one_iff.mp ha
  rfl

/-- From cursor 0, with a stale byte in the buffer. -/
theorem witness_synchronise :
    ∃ s : State, s.cfg.wf = true ∧ s.pos = 0 ∧ s.buf = [(3, 0x11#8)]
      ∧ s.inq = feeds (Config.preamble ++ [s.cfg.version]) ++ [.noByte] :=
  ⟨{ after cfgG [] (feeds hdr ++ [.noByte]) with buf := [(3, 0x11#8)] }, rfl, rfl, rfl, rfl⟩

/-- V1, and the longest payload in a buffer of exactly 264. -/
theorem witness_whole_frame :
    (∃ s : State, s.cfg.wf = true ∧ s.pos = 0 ∧ s.inq = feeds (frame s.cfg.version 0x03#8 [0x04#8, 0x00#8]) ++ [])
      ∧ (List.replicate 255 0xFF#8).length ≤ 255 ∧ 9 + (List.replicate 255 0xFF#8).length ≤ cfgG.bufCap :=
  ⟨⟨after cfgG [] (feeds (v1 ++ [0xE7#8])), rfl, rfl, by decide⟩, by rw [List.length_replicate],
    by rw [List.length_replicate]; decide⟩

/-- In the middle of a frame, with each of the two bounds. -/
theorem witness_filler :
    (∃ s : State, s.Inv ∧ 0x55#8 ≠ 0x49#8 ∧ (0x55#8 ≠ 0xFF#8 ∨ s.cfg.version ≠ 0xFF#8)
        ∧ s.inq = List.replicate 258 (.feed 0x55#8) ++ [])
      ∧ ∃ s : State, s.Inv ∧ s.pos = 11 ∧ s.inq = List.replicate 256 (.feed 0x00#8) ++ [] :=
  ⟨⟨after cfgG v1 (List.replicate 258 (.feed 0x55#8) ++ []), inv_of_bools rfl, by decide, .inl (by decide), rfl⟩,
    ⟨after cfgG v1 (List.replicate 256 (.feed 0x00#8) ++ []), inv_of_bools rfl, rfl, rfl⟩⟩

end Sys2Proof.Tests
end

section
/-! The movement of the cursor, stimulus by stimulus (R21), and O38. -/

namespace Sys2Proof.Machine

/-- What R21 lets the cursor be after a step on a stimulus. It moves forward only below the capacity (R115). -/
def CursorRule (s : State) (x : Stimulus) (n : Nat) : Prop :=
  match x with
  | .ports true _ => n = 0
  | .ports false none => n = s.pos
  | .ports false (some _) => (n = s.pos + 1 ∧ s.pos < s.cfg.bufCap) ∨ n = 0
  | .decode _ _ => n = s.pos

/-- Only `ADVANCE` moves the cursor forward; a reject and the checksum byte return it to 0. -/
theorem Fed.pos {s t : State} {b : Byte} (h : Fed s b t) :
    (t.pos = s.pos + 1 ∧ s.pos < s.cfg.bufCap) ∨ t.pos = 0 := by
  cases h with
  | advance hcap _ ht => exact .inl ⟨by rw [ht, advanced_pos], hcap⟩
  | reject ht => exact .inr (by rw [ht, rejected_pos])
  | finish _ _ _ hpos => exact .inr hpos

theorem step_cursorRule {s t : State} (h : step s = .next t) : CursorRule s s.stimulus t.pos := by
  obtain ⟨-, hcases⟩ := step_cases h
  cases hcases with
  | reset inp hstim hexec =>
    rw [hstim]
    cases hexec
    rfl
  | idle hstim ht =>
    rw [hstim, ht]
    rfl
  | row p verify hstim hexec =>
    rw [hstim, (exec_row_eq_next hexec).2]
    rfl
  | feed b i hstim _ _ _ hfed =>
    rw [hstim]
    exact hfed.pos

theorem CursorRule.le_bufCap {s : State} {x : Stimulus} {n : Nat} (h : CursorRule s x n)
    (hle : s.pos ≤ s.cfg.bufCap) : n ≤ s.cfg.bufCap := by
  unfold CursorRule at h
  split at h <;> omega

/-- INV1 (R33): the cursor is within the buffer. -/
theorem State.Inv.pos_le_bufCap {s : State} (h : s.Inv) : s.pos ≤ s.cfg.bufCap := by
  obtain ⟨-, -, -, hassert⟩ := h
  exact ((assertions_iff s).mp hassert).inv1

/-- Settles O38: each clause on a stimulus is that stimulus' case of `CursorRule`, and the bound holds because every case of
the rule keeps INV1. -/
theorem cursorAdvancesByOneOrReturnsToZero : Obligations.CursorAdvancesByOneOrReturnsToZero := by
  refine ⟨fun s t h => ?_, rfl⟩
  have hrule := step_cursorRule h
  refine ⟨fun b hstim => ?_, fun hstim => ?_, fun inp hstim => ?_, fun hinv => ?_⟩
  · rw [hstim] at hrule
    exact hrule.imp_left And.left
  · rw [hstim] at hrule
    exact hrule
  · rw [hstim] at hrule
    exact hrule
  · have hle := hrule.le_bufCap hinv.pos_le_bufCap
    exact ⟨hle, fun hcap => by omega⟩

end Sys2Proof.Machine
end

section
/-! The classes of a byte in a state that meets the invariants (R68), and O8. -/

namespace Sys2Proof

/-- The thirteen byte classes of R68. -/
def byteClasses (b : Byte) : List Instr :=
  [.pre0 b, .pre1 b, .pre2 b, .pre3 b, .pre4 b, .pre5 b, .ver b, .typeByte b, .lenByte b, .pay b, .csumBad b, .csumRpc b,
    .csumOther b]

theorem Selects.mem_byteClasses {c : Context} {b : Byte} {i : Instr} (h : Selects c b i) : i ∈ byteClasses b := by
  cases h <;> simp [byteClasses]

/-- Inside the header the cursor alone selects. -/
theorem exists_selects_of_header {c : Context} (b : Byte) (h : c.pos < 9) : ∃ i, Selects c b i := by
  match hp : c.pos, h with
  | 0, _ => exact ⟨_, .pre0 hp⟩
  | 1, _ => exact ⟨_, .pre1 hp⟩
  | 2, _ => exact ⟨_, .pre2 hp⟩
  | 3, _ => exact ⟨_, .pre3 hp⟩
  | 4, _ => exact ⟨_, .pre4 hp⟩
  | 5, _ => exact ⟨_, .pre5 hp⟩
  | 6, _ => exact ⟨_, .ver hp⟩
  | 7, _ => exact ⟨_, .typeByte hp⟩
  | 8, _ => exact ⟨_, .lenByte hp⟩

end Sys2Proof

namespace Sys2Proof.Machine

/-- With the cursor at `9 + L`, INV2 has the whole body readable, so the sum and the type byte are defined. -/
theorem Assertions.exists_atChecksum {s : State} (hs : Assertions s) {l : Byte} (hlen : bufRead s 8 = some l)
    (hpos : s.pos = 9 + l.toNat) :
    ∃ body ftype, AtChecksum s body ∧ body[7]? = some ftype ∧ s.context.ftype = some ftype
      ∧ s.context.sum = some (sum8 body) := by
  obtain ⟨body, hbody⟩ := hs.body
  have hat : AtChecksum s body := ⟨hbody, l, by rw [← bufRead_of_range hbody (by omega), hlen], hpos⟩
  obtain ⟨-, ftype, -, h7, -, -, -, htype, hsum, -⟩ := hat.views
  exact ⟨body, ftype, hat, h7, htype, hsum⟩

/-- Under the invariants `Selects` is the whole of `decodeByte`: `CSUM.BAD` reads the type byte too, and INV2 has it defined. -/
theorem Assertions.decodeByte_eq_instr_iff {s : State} (hs : Assertions s) {b : Byte} {i : Instr} :
    decodeByte s.context b = .instr i ↔ Selects s.context b i := by
  refine ⟨selects_of_decodeByte, fun h => ?_⟩
  cases h with
  | pre0 h | pre1 h | pre2 h | pre3 h | pre4 h | pre5 h | ver h | typeByte h | lenByte h => simp only [decodeByte, h]
  | pay l hlen h9 h => exact decodeByte_payload b h9 hlen h
  | csumBad l x hlen h hsum hb =>
    obtain ⟨-, ftype, -, -, htype, -⟩ := hs.exists_atChecksum hlen h
    rw [decodeByte_checksum b hlen h hsum htype, checksumInstr, if_pos hb]
  | csumRpc l hlen h hsum htype =>
    rw [decodeByte_checksum b hlen h hsum htype, checksumInstr, if_neg (not_not.mpr rfl), if_pos rfl]
  | csumOther l ftype hlen h hsum htype hne =>
    rw [decodeByte_checksum b hlen h hsum htype, checksumInstr, if_neg (not_not.mpr rfl), if_neg hne]

/-- `CSUM.BAD` (R112): a byte other than the sum of the body. -/
theorem Assertions.selects_csumBad_iff {s : State} (hs : Assertions s) {b : Byte} :
    Selects s.context b (.csumBad b) ↔ ∃ body, AtChecksum s body ∧ b ≠ sum8 body := by
  constructor
  · intro h
    cases h with
    | csumBad l x hlen hpos hsum hb =>
      obtain ⟨body, -, hat, -, -, hsum'⟩ := hs.exists_atChecksum hlen hpos
      obtain rfl : x = sum8 body := Option.some.inj (hsum.symm.trans hsum')
      exact ⟨body, hat, hb⟩
  · rintro ⟨body, hat, hb⟩
    obtain ⟨l, _, -, -, -, hpos, hlen, -, hsum, -⟩ := hat.views
    exact .csumBad l _ hlen hpos hsum hb

/-- `CSUM.RPC` (R113): the sum of the body, in a frame of type 03. -/
theorem Assertions.selects_csumRpc_iff {s : State} (hs : Assertions s) {b : Byte} :
    Selects s.context b (.csumRpc b) ↔
      ∃ body, AtChecksum s body ∧ b = sum8 body ∧ body[7]? = some Config.typeRpcCommand := by
  constructor
  · intro h
    cases h with
    | csumRpc l hlen hpos hsum htype =>
      obtain ⟨body, ftype, hat, h7, htype', hsum'⟩ := hs.exists_atChecksum hlen hpos
      exact ⟨body, hat, Option.some.inj (hsum.symm.trans hsum'), by rw [h7, ← htype', htype]⟩
  · rintro ⟨body, hat, rfl, h3⟩
    obtain ⟨l, ftype, -, h7, -, hpos, hlen, htype, hsum, -⟩ := hat.views
    exact .csumRpc l hlen hpos hsum (by rw [context_ftype, htype, ← h7, h3])

/-- `CSUM.OTHER` (R114): the sum of the body, in a frame of any other type. -/
theorem Assertions.selects_csumOther_iff {s : State} (hs : Assertions s) {b : Byte} :
    Selects s.context b (.csumOther b) ↔
      ∃ body, AtChecksum s body ∧ b = sum8 body ∧ body[7]? ≠ some Config.typeRpcCommand := by
  constructor
  · intro h
    cases h with
    | csumOther l ftype hlen hpos hsum htype hne =>
      obtain ⟨body, t, hat, h7, htype', hsum'⟩ := hs.exists_atChecksum hlen hpos
      obtain rfl : ftype = t := Option.some.inj (htype.symm.trans htype')
      exact ⟨body, hat, Option.some.inj (hsum.symm.trans hsum'), by simpa [h7] using hne⟩
  · rintro ⟨body, hat, rfl, h3⟩
    obtain ⟨l, ftype, -, h7, -, hpos, hlen, htype, hsum, -⟩ := hat.views
    exact .csumOther l ftype hlen hpos hsum htype (by simpa [h7] using h3)

/-- Every byte has a class: INV4 keeps the cursor at or before the checksum position. -/
theorem Assertions.exists_selects {s : State} (hs : Assertions s) (b : Byte) : ∃ i, Selects s.context b i := by
  by_cases h9 : s.pos < 9
  · exact exists_selects_of_header b h9
  · obtain ⟨l, hl, hle⟩ := hs.inv4 (by omega)
    rw [← bufRead_of_lt (by omega)] at hl
    by_cases hpay : s.pos ≤ 8 + l.toNat
    · exact ⟨_, .pay l hl (Nat.le_of_not_lt h9) hpay⟩
    · obtain ⟨body, ftype, hat, h7, -⟩ := hs.exists_atChecksum hl (by omega)
      exact ⟨_, selects_of_decodeByte (hat.decodeByte_eq h7 b)⟩

/-- Settles O8: under the invariants `decodeByte` reads what `Selects` says, and each clause is the inversion of that class' one
constructor; the checksum classes go through the body below the cursor. -/
theorem byteClassesAreExclusiveAndCover : Obligations.ByteClassesAreExclusiveAndCover := by
  intro s b hassert
  have hs := (assertions_iff s).mp hassert
  simp only [hs.decodeByte_eq_instr_iff]
  refine ⟨⟨fun (.pre0 h) => h, fun h => .pre0 h⟩,
    ⟨fun (.pre1 h) => h, fun h => .pre1 h⟩,
    ⟨fun (.pre2 h) => h, fun h => .pre2 h⟩,
    ⟨fun (.pre3 h) => h, fun h => .pre3 h⟩,
    ⟨fun (.pre4 h) => h, fun h => .pre4 h⟩,
    ⟨fun (.pre5 h) => h, fun h => .pre5 h⟩,
    ⟨fun (.ver h) => h, fun h => .ver h⟩,
    ⟨fun (.typeByte h) => h, fun h => .typeByte h⟩,
    ⟨fun (.lenByte h) => h, fun h => .lenByte h⟩,
    ⟨fun (.pay l hlen h9 h) => ⟨h9, l, hlen, h⟩, fun ⟨h9, l, hlen, h⟩ => .pay l hlen h9 h⟩,
    hs.selects_csumBad_iff, hs.selects_csumRpc_iff, hs.selects_csumOther_iff, ?_⟩
  obtain ⟨i, hi⟩ := hs.exists_selects b
  exact ⟨i, hi, hi.mem_byteClasses⟩

end Sys2Proof.Machine
end

section
/-! The command decoder built from the opcode table's rows answers as the listing of R140. -/

namespace Sys2Proof.Machine

theorem getElem?_eq_byteAt {p : List Byte} {i : Nat} (h : i < p.length) : p[i]? = some (byteAt p i) := by
  simp [byteAt, List.getD, h]

theorem slice_zero_pred (p : List Byte) : slice p 0 (p.length - 1) = p.dropLast := by
  simp [slice, List.dropLast_eq_take]

/-- The payload checksum test in the listing's terms (R143): the last byte and the slice before it. -/
theorem getLast?_eq_sum8_iff {p : List Byte} (h : 0 < p.length) :
    p.getLast? = some (sum8 p.dropLast) ↔ byteAt p (p.length - 1) = sum8 (slice p 0 (p.length - 1)) := by
  rw [List.getLast?_eq_getElem?, getElem?_eq_byteAt (by omega), slice_zero_pred, Option.some.injEq]

/-- Where the declared data lies inside the payload, every length byte that `wifiFields` tests for is there (R145, R146). -/
theorem wifiFields_eq_slices {code d : Byte} {rest p : List Byte} (hp : p = code :: d :: rest)
    (h : 2 + d.toNat ≤ p.length) :
    wifiFields p =
      if 3 > 2 + d.toNat then none
      else if 3 + (byteAt p 2).toNat + 1 > 2 + d.toNat then none
      else if 4 + (byteAt p 2).toNat + (byteAt p (3 + (byteAt p 2).toNat)).toNat > 2 + d.toNat then none
      else some (slice p 3 (3 + (byteAt p 2).toNat),
        slice p (4 + (byteAt p 2).toNat)
          (4 + (byteAt p 2).toNat + (byteAt p (3 + (byteAt p 2).toNat)).toNat)) := by
  subst hp
  unfold wifiFields
  by_cases h3 : 3 > 2 + d.toNat
  · simp [h3]
  simp only [h3, if_false, getElem?_eq_byteAt (show 2 < (code :: d :: rest).length by omega)]
  split
  · rfl
  · rw [getElem?_eq_byteAt (by omega)]
    simp [slice]

/-- The decoder's rows and the listing of R140 test the same conditions in the same order; only the `WifiSettings` code reads
further, and there the lengths test bounds every read. -/
theorem decodeCommand_eq_decodeListing (c : Config) (p : List Byte) (verify : Bool) :
    decodeCommand c p verify = decodeListing c p verify := by
  match p with
  | [] => rfl
  | [_] => rfl
  | code :: d :: rest =>
    have hcode : byteAt (code :: d :: rest) 0 = code := rfl
    have hdecl : byteAt (code :: d :: rest) 1 = d := rfl
    have hsum := getLast?_eq_sum8_iff (p := code :: d :: rest) (by simp)
    have hshort : ¬ ((code :: d :: rest).length : Int) < 2 := by simp
    simp only [decodeCommand, classify, decodeListing, hcode, hdecl, hshort, if_false, ne_eq, hsum, verifyLen]
    by_cases hd : (d.toNat : Int) = (code :: d :: rest).length - 2 - if verify then 1 else 0
    · have hfit : 2 + d.toNat ≤ (code :: d :: rest).length := by split at hd <;> omega
      rw [if_neg (not_not.mpr hd), if_neg (not_not.mpr hd)]
      split
      · rfl
      split
      · calc
          _ = answerWifiSettings (code :: d :: rest) := by
            cases hw : wifiFields (code :: d :: rest) <;> simp [answer, answerOverrun, answerWifiSettings, hw]
          _ = _ := by
            rw [answerWifiSettings, wifiFields_eq_slices rfl hfit]
            norm_cast
            split_ifs <;> rfl
      · split_ifs <;> rfl
    · rw [if_pos hd, if_pos hd]
      rfl

end Sys2Proof.Machine
end

section
/-! What each byte's instruction does where its position selects it, and O12, O13, O14, O18, O19, O22. -/

namespace Sys2Proof.Machine

theorem accepted_advanced (b : Byte) (s : State) : Accepted s b (advanced b s) :=
  ⟨rfl, Memory.read_write_same _ _ _, fun _ ha => Memory.read_write_other _ _ ha, ⟨rfl, rfl, rfl, rfl⟩, rfl, rfl, rfl⟩

theorem silentlyRejected_rejected (s : State) : SilentlyRejected s (rejected s) :=
  ⟨rfl, fun _ => rfl, ⟨rfl, rfl, rfl, rfl⟩, rfl, rfl, rfl⟩

/-- A position that waits for one byte: that byte is accepted where the buffer has room, any other silently rejected. -/
theorem expect_accepts_or_rejects {s : State} (want b : Byte) (hcap : s.pos < s.cfg.bufCap) :
    (b = want → ∃ t, expect want b s = .next t ∧ Accepted s b t)
      ∧ (b ≠ want → ∃ t, expect want b s = .next t ∧ SilentlyRejected s t) := by
  constructor
  · rintro rfl
    exact ⟨_, expect_match b hcap, accepted_advanced b s⟩
  · exact fun hne => ⟨_, expect_mismatch s hne, silentlyRejected_rejected s⟩

theorem advance_accepts {s : State} (b : Byte) (hcap : s.pos < s.cfg.bufCap) :
    ∃ t, advance b s = .next t ∧ Accepted s b t :=
  ⟨_, advance_of_lt b hcap, accepted_advanced b s⟩

/-! ### The meanings where they are selected -/

theorem preambleRow_pos_lt : ∀ row ∈ preambleRows, row.2.1 < 6 := by decide

/-- A preamble row at its position waits for its character (R102 to R107). -/
theorem exec_preambleRow {row : (Byte → Instr) × Nat × Byte} (hrow : row ∈ preambleRows) {s : State} (b : Byte)
    (hpos : s.pos = row.2.1) : exec (row.1 b) s = expect row.2.2 b s := by
  simp only [preambleRows, List.mem_cons, List.not_mem_nil, or_false] at hrow
  rcases hrow with rfl | rfl | rfl | rfl | rfl | rfl <;>
    exact whenClassIs_selected _ (by simp only [decodeByte, context_pos, hpos])

theorem exec_ver {s : State} (b : Byte) (hpos : s.pos = 6) : exec (.ver b) s = expect s.cfg.version b s :=
  whenClassIs_selected _ (by simp only [decodeByte, context_pos, hpos])

theorem exec_typeByte {s : State} (b : Byte) (hpos : s.pos = 7) : exec (.typeByte b) s = advance b s :=
  whenClassIs_selected _ (by simp only [decodeByte, context_pos, hpos])

theorem exec_lenByte {s : State} (b : Byte) (hpos : s.pos = 8) : exec (.lenByte b) s = advance b s :=
  whenClassIs_selected _ (by simp only [decodeByte, context_pos, hpos])

theorem exec_pay {s : State} (b : Byte) {l : Byte} (h9 : 9 ≤ s.pos) (hlen : bufRead s 8 = some l)
    (hle : s.pos ≤ 8 + l.toNat) : exec (.pay b) s = advance b s :=
  whenClassIs_selected _ (decodeByte_payload b h9 hlen hle)

/-- At the checksum position a byte is wrong exactly when it differs from the sum (R112). -/
theorem AtChecksum.decodeByte_eq_csumBad_iff {s : State} {body : List Byte} (h : AtChecksum s body) (b : Byte) :
    decodeByte s.context b = .instr (.csumBad b) ↔ b ≠ sum8 body := by
  obtain ⟨-, ftype, -, h7, -⟩ := h.views
  rw [h.decodeByte_eq h7, checksumInstr]
  split_ifs <;> simp_all

theorem AtChecksum.exec_csumBad {s : State} {b : Byte} {body : List Byte} (h : AtChecksum s body) (hb : b ≠ sum8 body) :
    exec (.csumBad b) s = .next (s.toStart.drive .reject (.err .invalidRpc) none none) :=
  whenClassIs_selected _ ((h.decodeByte_eq_csumBad_iff b).mpr hb)

theorem AtChecksum.exec_csumOther {s : State} {body : List Byte} (h : AtChecksum s body)
    (htype : body[7]? ≠ some Config.typeRpcCommand) :
    exec (.csumOther (sum8 body)) s = .next (s.toStart.verdictOnly .accept) := by
  obtain ⟨-, ftype, -, h7, -⟩ := h.views
  refine whenClassIs_selected _ ?_
  rw [h.decodeByte_eq h7, checksumInstr, if_neg (not_not.mpr rfl), if_neg (by simpa [h7] using htype)]

/-! ### The obligations -/

/-- Settles O12: each preamble row is `expect` of its own character, and R7's capacity has room for the header. -/
theorem preamblePositionsAdvanceOrReject : Obligations.PreamblePositionsAdvanceOrReject := by
  intro row hrow s b hwf hpos
  have hcap := Config.nine_le_bufCap hwf
  have hlt := preambleRow_pos_lt row hrow
  rw [exec_preambleRow hrow b hpos]
  exact expect_accepts_or_rejects row.2.2 b (by omega)

/-- Settles O13: `VER` is `expect` of the configured version. -/
theorem versionPositionAcceptsOnlyVersion : Obligations.VersionPositionAcceptsOnlyVersion := by
  intro s b hwf hpos
  have hcap := Config.nine_le_bufCap hwf
  rw [exec_ver b hpos]
  exact expect_accepts_or_rejects s.cfg.version b (by omega)

/-- Settles O14: both positions `ADVANCE` below the least capacity 9, and the byte stored at 8 stands below the new cursor. -/
theorem typeAndLengthPositionsAcceptEveryByte : Obligations.TypeAndLengthPositionsAcceptEveryByte := by
  intro s b hwf
  have hcap := Config.nine_le_bufCap hwf
  refine ⟨fun hpos => ?_, fun hpos => ?_⟩
  · rw [exec_typeByte b hpos]
    exact advance_accepts b (by omega)
  · obtain ⟨t, ht, hacc⟩ := advance_accepts b (show s.pos < s.cfg.bufCap by omega)
    have ⟨htpos, hread, _⟩ := hacc
    exact ⟨t, by rw [exec_lenByte b hpos, ht], hacc, by rw [bufRead_of_lt (by omega), ← hpos, hread]⟩

/-- Settles O18: the views of the buffer at the checksum position are those of the body read below the cursor. -/
theorem sum8IsTheSumModulo256 : Obligations.Sum8IsTheSumModulo256 := by
  refine ⟨sum8_toNat, sum8_nil, fun s b body hat => ?_⟩
  obtain ⟨l, -, -, -, hlen, hpos, -⟩ := hat.views
  exact ⟨hlen, by omega, fun i hi => (bufRead_of_range hat.1 hi).symm, hat.decodeByte_eq_csumBad_iff b⟩

/-- Settles O19: `CSUM.BAD` only returns to position 0 and drives its outputs, and nothing is readable below cursor 0. -/
theorem wrongChecksumSignalsInvalidRpc : Obligations.WrongChecksumSignalsInvalidRpc := fun _ _ _ hat hb =>
  ⟨_, hat.exec_csumBad hb, rfl, fun _ => rfl, fun _ => bufRead_of_ge (Nat.zero_le _), ⟨rfl, rfl, rfl, rfl⟩, rfl, rfl, rfl⟩

/-- Settles O22: `IDLE` drives its outputs and nothing else. -/
theorem idleLeavesCursorAndBuffer : Obligations.IdleLeavesCursorAndBuffer := fun _ =>
  ⟨_, rfl, rfl, rfl, ⟨rfl, rfl, rfl, rfl⟩, rfl, rfl, rfl⟩

end Sys2Proof.Machine
end

section
/-! The step agrees with the listing of R100: O44. -/

namespace Sys2Proof.Machine

/-- The outcome `r` of a meaning run on `s` is the listing's outcome `o`, with the configuration and the stimuli kept. -/
def Refines (s : State) (r : Result) (o : ListingOutcome) : Prop :=
  match o with
  | .done pos buf acc ev =>
    ∃ t, r = .next t ∧ t.pos = pos ∧ t.buf = buf ∧ t.acc = acc ∧ t.ev = ev ∧ t.cfg = s.cfg ∧ t.inq = s.inq
  | .fault f => r = .fault f

/-- `Refines` on the state with its stimulus taken is the obligation's own relation. -/
theorem stepIs_of_refines {s : State} {x : Stimulus} {rest : List Stimulus} {o : ListingOutcome}
    (hinq : s.inq = x :: rest) (h : Refines s.consume (step s) o) : StepIs s rest o := by
  cases o with
  | done pos buf acc ev =>
    obtain ⟨t, ht, hpos, hbuf, hacc, hev, hcfg, htinq⟩ := h
    exact ⟨t, ht, hpos, hbuf, hacc, hev, hcfg, by rw [htinq, State.consume_inq, hinq, List.tail_cons]⟩
  | fault f => exact h

/-! ### The common actions -/

theorem reject_refines (s : State) : Refines s (reject s) (.done 0 s.buf .reject .none) :=
  ⟨_, rfl, rfl, rfl, rfl, rfl, rfl, rfl⟩

theorem advance_refines (b : Byte) (s : State) : Refines s (advance b s) (advanceListing s b) := by
  unfold advanceListing
  split
  · rename_i hge
    rw [advance_of_ge b hge]
    exact reject_refines s
  · rename_i hlt
    rw [advance_of_lt b (by omega)]
    exact ⟨_, rfl, rfl, rfl, rfl, rfl, rfl, rfl⟩

theorem expect_refines (want b : Byte) (s : State) :
    Refines s (expect want b s) (if b = want then advanceListing s b else .done 0 s.buf .reject .none) := by
  unfold expect
  split
  · exact advance_refines b s
  · exact reject_refines s

theorem deliver_refines (p : List Byte) (r : Verdict) (s : State) :
    Refines s (deliver p r s) (.done 0 s.buf .accept (eventOf r)) := by
  obtain ⟨t, ht, hpos, hbuf, hcfg, hinq, hacc, hev, -⟩ := deliver_spec p r s
  exact ⟨t, ht, hpos, hbuf, hacc, hev, hcfg, hinq⟩

/-! ### The listing of `FEED`, position by position -/

theorem feedListing_preamble {s : State} {want : Byte} (b : Byte) (h : Config.preamble[s.pos]? = some want) :
    feedListing s b = if b = want then advanceListing s b else .done 0 s.buf .reject .none := by
  obtain ⟨hlt, -⟩ := List.getElem?_eq_some_iff.mp h
  have hpos : s.pos ≤ 5 := Nat.le_of_lt_succ hlt
  simp [feedListing, hpos, h]

theorem feedListing_version {s : State} (b : Byte) (h : s.pos = 6) :
    feedListing s b = if b = s.cfg.version then advanceListing s b else .done 0 s.buf .reject .none := by
  simp [feedListing, h]

theorem feedListing_typeOrLength {s : State} (b : Byte) (h : s.pos = 7 ∨ s.pos = 8) :
    feedListing s b = advanceListing s b := by
  rcases h with h | h <;> simp [feedListing, h]

theorem feedListing_payload {s : State} {l : Byte} (b : Byte) (h9 : 9 ≤ s.pos) (hlen : bufRead s 8 = some l)
    (hle : s.pos ≤ 8 + l.toNat) : feedListing s b = advanceListing s b := by
  unfold feedListing
  rw [if_neg (by omega), if_neg (by omega), if_neg (by omega)]
  simp [hlen, hle]

/-- At the checksum position: the sum over the body, then the frame type, then the decoder's answer (R112 to R114). -/
theorem AtChecksum.feedListing_eq {s : State} {body : List Byte} {ftype : Byte} (h : AtChecksum s body)
    (htype : body[7]? = some ftype) (b : Byte) :
    feedListing s b =
      if b ≠ sum8 body then .done 0 s.buf .reject (.err .invalidRpc)
      else if ftype = Config.typeRpcCommand then .done 0 s.buf .accept (eventOf (decodeListing s.cfg (body.drop 9) false))
      else .done 0 s.buf .accept .none := by
  obtain ⟨l, t, -, h7, -, hpos, hlen, hread7, -, hpay⟩ := h.views
  obtain rfl : t = ftype := by simpa [h7] using htype
  have hrange : bufReadRange s 9 l.toNat = some (body.drop 9) := by simpa [payload, hlen] using hpay
  unfold feedListing
  rw [if_neg (by omega), if_neg (by omega), if_neg (by omega)]
  simp only [hlen, checksumListing, h.1, hread7, hrange]
  rw [if_neg (by omega), if_pos hpos]
  cases decodeListing s.cfg (body.drop 9) false <;> rfl

/-! ### Every byte's instruction against the listing -/

theorem preambleRow_refines {row : (Byte → Instr) × Nat × Byte} (hrow : row ∈ preambleRows) {s : State} (b : Byte)
    (hpos : s.pos = row.2.1) : Refines s (exec (row.1 b) s) (feedListing s b) := by
  have hchar : ∀ row ∈ preambleRows, Config.preamble[row.2.1]? = some row.2.2 := by decide
  rw [exec_preambleRow hrow b hpos, feedListing_preamble b (by rw [hpos]; exact hchar row hrow)]
  exact expect_refines row.2.2 b s

/-- Class by class: a header or payload byte is `ADVANCE` or a reject on both sides, and a checksum byte goes through the body
below the cursor. -/
theorem exec_refines_feedListing {s : State} (hs : Assertions s) {b : Byte} {i : Instr} (h : Selects s.context b i) :
    Refines s (exec i s) (feedListing s b) := by
  cases h with
  | pre0 h => exact preambleRow_refines (row := (.pre0, 0, 0x49#8)) (by simp [preambleRows]) b h
  | pre1 h => exact preambleRow_refines (row := (.pre1, 1, 0x4D#8)) (by simp [preambleRows]) b h
  | pre2 h => exact preambleRow_refines (row := (.pre2, 2, 0x50#8)) (by simp [preambleRows]) b h
  | pre3 h => exact preambleRow_refines (row := (.pre3, 3, 0x52#8)) (by simp [preambleRows]) b h
  | pre4 h => exact preambleRow_refines (row := (.pre4, 4, 0x4F#8)) (by simp [preambleRows]) b h
  | pre5 h => exact preambleRow_refines (row := (.pre5, 5, 0x56#8)) (by simp [preambleRows]) b h
  | ver h =>
    rw [exec_ver b h, feedListing_version b h]
    exact expect_refines s.cfg.version b s
  | typeByte h =>
    rw [exec_typeByte b h, feedListing_typeOrLength b (.inl h)]
    exact advance_refines b s
  | lenByte h =>
    rw [exec_lenByte b h, feedListing_typeOrLength b (.inr h)]
    exact advance_refines b s
  | pay l hlen h9 h =>
    rw [exec_pay b h9 hlen h, feedListing_payload b h9 hlen h]
    exact advance_refines b s
  | csumBad l x hlen h hsum hb =>
    obtain ⟨body, hat, hne⟩ := hs.selects_csumBad_iff.mp (.csumBad l x hlen h hsum hb)
    obtain ⟨-, ftype, -, h7, -⟩ := hat.views
    rw [hat.exec_csumBad hne, hat.feedListing_eq h7, if_pos hne]
    exact ⟨_, rfl, rfl, rfl, rfl, rfl, rfl, rfl⟩
  | csumRpc l hlen h hsum htype =>
    obtain ⟨body, hat, hb, h3⟩ := hs.selects_csumRpc_iff.mp (.csumRpc l hlen h hsum htype)
    rw [exec_csumRpc ⟨body, hat, h3, hb, rfl⟩, hat.feedListing_eq h3, if_neg (not_not.mpr hb), if_pos rfl,
      decodeCommand_eq_decodeListing]
    exact deliver_refines _ _ s
  | csumOther l ftype hlen h hsum htype hne =>
    obtain ⟨body, hat, rfl, h3⟩ := hs.selects_csumOther_iff.mp (.csumOther l ftype hlen h hsum htype hne)
    obtain ⟨-, t, -, h7, -⟩ := hat.views
    rw [hat.exec_csumOther h3, hat.feedListing_eq h7, if_neg (not_not.mpr rfl), if_neg (by simpa [h7] using h3)]
    exact ⟨_, rfl, rfl, rfl, rfl, rfl, rfl, rfl⟩

theorem bufReadRange_consume (s : State) (i n : Nat) : bufReadRange s.consume i n = bufReadRange s i n :=
  bufReadRange_congr (s := s) (t := s.consume) rfl (fun _ _ => rfl) i n

theorem checksumListing_consume (s : State) (b : Byte) (l : Nat) : checksumListing s.consume b l = checksumListing s b l := by
  simp only [checksumListing, bufReadRange_consume]
  rfl

/-- The listing reads nothing of the stimuli. -/
theorem feedListing_consume (s : State) (b : Byte) : feedListing s.consume b = feedListing s b := by
  simp only [feedListing, checksumListing_consume]
  rfl

/-! ### The step -/

/-- Under the invariants the step runs whatever the stimulus decodes to (R100). -/
theorem step_eq_exec {s : State} {i : Instr} (hwf : s.cfg.wf = true) (hassert : s.assertions = true)
    (hsel : decode s.cfg ⟨s.context, s.stimulus⟩ = .instr i) : step s = exec i s.consume := by
  have hfetch : fetch s = .instr i := by
    unfold fetch
    split
    · exact hsel
    · exact hsel
    · rw [if_pos hassert]
      exact hsel
    · exact hsel
  simp only [step, hwf, if_true, hfetch]

theorem stimulus_of_inq {s : State} {x : Stimulus} {rest : List Stimulus} (h : s.inq = x :: rest) : s.stimulus = x := by
  simp only [State.stimulus, h]

/-- Settles O44: a byte's instruction refines the listing of `FEED` class by class (`exec_refines_feedListing`), and the steps
without a byte are one update each. -/
theorem stepAgreesWithTheListing : Obligations.StepAgreesWithTheListing := by
  intro s rst inp rest hwf hassert hinq
  apply stepIs_of_refines hinq
  have hstim := stimulus_of_inq hinq
  match rst, inp with
  | true, inp =>
    rw [step_eq_exec hwf hassert (i := .reset) (by rw [hstim]; rfl)]
    exact ⟨_, rfl, rfl, rfl, rfl, rfl, rfl, rfl⟩
  | false, none =>
    rw [step_eq_exec hwf hassert (i := .idle) (by rw [hstim]; rfl)]
    exact ⟨_, rfl, rfl, rfl, rfl, rfl, rfl, rfl⟩
  | false, some b =>
    have hs : Assertions s.consume := (assertions_iff s.consume).mp hassert
    obtain ⟨i, hi⟩ := hs.exists_selects b
    have hsel : decode s.cfg ⟨s.context, s.stimulus⟩ = .instr i := by
      rw [hstim, ← context_consume]
      exact hs.decodeByte_eq_instr_iff.mpr hi
    rw [step_eq_exec hwf hassert hsel]
    simpa [stepListing, feedListing_consume] using exec_refines_feedListing hs hi

end Sys2Proof.Machine
end

section
/-! The command decoder's rows: where each answers, in either mode and through the receiver, and O24, O25, O26, O30, O31. -/

namespace Sys2Proof

/-! ### The row a payload selects -/

/-- The length test comes first and reads no code (R142). -/
theorem classify_dlen (c : Config) {code d : Byte} {rest : List Byte} {verify : Bool}
    (h : (d.toNat : Int) ≠ ((code :: d :: rest).length : Int) - 2 - verifyLen verify) :
    classify c (code :: d :: rest) verify = .dlen := by
  rw [classify, if_pos h]

/-- Past the length test, verify mode compares the last byte with the sum of the bytes before it (R143). -/
theorem classify_badsum (c : Config) {code x : Byte} {data : List Byte} (hdata : data.length ≤ 255)
    (hx : x ≠ sum8 (rpcPayload code data)) : classify c (rpcPayload code data ++ [x]) true = .badsum := by
  have hsum : (rpcPayload code data ++ [x]).getLast? ≠ some (sum8 (rpcPayload code data ++ [x]).dropLast) := by
    rw [List.getLast?_concat, List.dropLast_concat]
    exact fun h => hx (Option.some.inj h)
  simp only [rpcPayload, List.cons_append, List.nil_append] at hsum ⊢
  rw [classify, if_neg (by simp [toNat_lengthByte hdata, verifyLen]; omega), if_pos ⟨rfl, hsum⟩]

/-- A payload's row depends on the four codes only, not on the rest of the configuration (R154). -/
theorem classify_congr_codes {c c' : Config} (hwifi : c'.codeWifiSettings = c.codeWifiSettings)
    (hstate : c'.codeGetCurrentState = c.codeGetCurrentState) (hinfo : c'.codeGetDeviceInfo = c.codeGetDeviceInfo)
    (hnetworks : c'.wifiNetworksCode = c.wifiNetworksCode) (p : List Byte) (verify : Bool) :
    classify c' p verify = classify c p verify := by
  unfold classify
  rw [hwifi, hstate, hinfo, hnetworks]

/-- A code that is none of the four selects `OTHER` (R151). -/
theorem rowOfCode_other {c : Config} {code : Byte} (hwifi : code ≠ c.codeWifiSettings)
    (hstate : code ≠ c.codeGetCurrentState) (hinfo : code ≠ c.codeGetDeviceInfo) (hnetworks : code ≠ c.wifiNetworksCode)
    (p : List Byte) : rowOfCode c code p = .other := by
  rw [rowOfCode, if_neg hwifi, if_neg hstate, if_neg hinfo, if_neg hnetworks]

/-- The code of `WifiSettings` with strings that fit selects `WIFI_SETTINGS` (R145). -/
theorem rowOfCode_wifiSettings {c : Config} {p : List Byte} {strings : List Byte × List Byte}
    (h : wifiFields p = some strings) : rowOfCode c c.codeWifiSettings p = .wifiSettings := by
  rw [rowOfCode, if_pos rfl, h]

/-! ### The strings of a payload with and without its checksum byte -/

/-- Data either overruns or is an SSID and a password with what follows them (R145 to R147). -/
theorem overruns_or_eq_wifiData (data : List Byte) :
    Machine.Overruns data ∨ ∃ ssid pw trailing, data = Machine.wifiData ssid pw trailing := by
  match data with
  | [] => exact .inl (.inl rfl)
  | s :: rest =>
    by_cases hs : rest.length < s.toNat + 1
    · exact .inl (.inr (.inl ⟨s, rest, rfl, hs⟩))
    obtain ⟨pw, after, hafter⟩ : ∃ pw after, rest.drop s.toNat = pw :: after :=
      List.exists_cons_of_length_pos (by simp; omega)
    have hlen : (rest.take s.toNat).length = s.toNat := by simp; omega
    have hrest : rest = rest.take s.toNat ++ pw :: after := by rw [← hafter, List.take_append_drop]
    by_cases hp : after.length < pw.toNat
    · exact .inl (.inr (.inr ⟨s, rest.take s.toNat, pw, after, by rw [List.cons_append, ← hrest], hlen, hp⟩))
    · have hplen : (after.take pw.toNat).length = pw.toNat := by simp; omega
      refine .inr ⟨rest.take s.toNat, after.take pw.toNat, after.drop pw.toNat, ?_⟩
      simp only [Machine.wifiData, hlen, hplen, BitVec.ofNat_toNat, BitVec.setWidth_eq, List.cons_append,
        List.append_assoc, List.take_append_drop]
      rw [← hrest]

/-- No byte beyond the declared data is read for the strings (R146). -/
theorem wifiFields_append (code d : Byte) {data : List Byte} (tail : List Byte) (hd : d.toNat = data.length) :
    wifiFields (code :: d :: (data ++ tail)) = wifiFields (code :: d :: data) := by
  rcases overruns_or_eq_wifiData data with h | ⟨ssid, pw, trailing, rfl⟩
  · rw [wifiFields_overrun _ _ _ tail hd h, ← List.append_nil data, wifiFields_overrun _ _ _ [] hd h]
  · rw [wifiFields_strings _ _ _ _ _ tail hd, ← List.append_nil (Machine.wifiData ssid pw trailing),
      wifiFields_strings _ _ _ _ _ [] hd]

/-- The payload checksum byte is no part of the strings. -/
theorem wifiFields_framed (verify : Bool) (code : Byte) {data : List Byte} (h : data.length ≤ 255) :
    wifiFields (Machine.framedPayload verify code data) = wifiFields (Machine.framedPayload false code data) := by
  obtain ⟨tail, htail, -⟩ := framedPayload_eq verify code data
  obtain ⟨tail', htail', hnil⟩ := framedPayload_eq false code data
  rw [htail, htail', hnil rfl, List.append_nil]
  exact wifiFields_append _ _ _ (toNat_lengthByte h)

/-- A `WifiSettings` payload gives the strings it was built from, in either mode (R145). -/
theorem wifiFields_framed_wifiData (verify : Bool) (code : Byte) (ssid pw : List Byte)
    (h : ssid.length + pw.length + 2 ≤ 255) :
    wifiFields (Machine.framedPayload verify code (Machine.wifiData ssid pw [])) = some (ssid, pw) := by
  obtain ⟨tail, htail, -⟩ := framedPayload_eq verify code (Machine.wifiData ssid pw [])
  rw [htail]
  exact wifiFields_strings _ _ _ _ _ _ (toNat_lengthByte (by simp [Machine.wifiData]; omega))

end Sys2Proof

namespace Sys2Proof.Machine

/-! ### The answer of a selected row -/

/-- A decoder row on operands of its own answers on `dec` and leaves all else as it was (R154). -/
theorem exec_row_answered {row : DecoderRow} {p : List Byte} {verify : Bool} {s : State}
    (h : classify s.cfg p verify = row) :
    ∃ t, exec (row.toInstr p verify) s = .next t ∧ Answered s (answer row p) t :=
  ⟨_, exec_row_selected h, rfl, fun _ => rfl, ⟨rfl, rfl, rfl, rfl⟩, rfl, rfl, rfl⟩

/-- A right checksum byte over a payload of a row emits that row's answer (R113, R152). -/
theorem exec_csumRpc_row {row : DecoderRow} {p : List Byte} {s : State} {b : Byte} (h : classify s.cfg p false = row)
    (hdone : CompletesRpc s b p) : ∃ t, exec (.csumRpc b) s = .next t ∧ t.ev = eventOf (answer row p) :=
  exec_csumRpc_event hdone (by rw [decodeCommand, h])

/-- Code and data that select `row`, which answers `r`, do so in either mode and through the receiver. -/
theorem framed_row_answers {s : State} {row : DecoderRow} {code : Byte} {data : List Byte} {r : Verdict}
    (hdata : data.length ≤ 255)
    (hrow : ∀ verify, rowOfCode s.cfg code (framedPayload verify code data) = row)
    (hanswer : ∀ verify, answer row (framedPayload verify code data) = r) :
    (∀ verify, ∃ t, exec (row.toInstr (framedPayload verify code data) verify) s = .next t ∧ Answered s r t)
      ∧ ∀ b, CompletesRpc s b (framedPayload false code data) →
          ∃ t, exec (.csumRpc b) s = .next t ∧ t.ev = eventOf r := by
  have hclass : ∀ verify, classify s.cfg (framedPayload verify code data) verify = row := fun verify =>
    (classify_framed s.cfg verify code data hdata).trans (hrow verify)
  refine ⟨fun verify => ?_, fun b hdone => ?_⟩
  · rw [← hanswer verify]
    exact exec_row_answered (hclass verify)
  · rw [← hanswer false]
    exact exec_csumRpc_row (hclass false) hdone

theorem answer_other_framed (verify : Bool) (code : Byte) (data : List Byte) :
    answer .other (framedPayload verify code data) = .command (.other code) := by
  obtain ⟨tail, htail, -⟩ := framedPayload_eq verify code data
  rw [htail]
  rfl

theorem answer_wifiSettings {p ssid pw : List Byte} (h : wifiFields p = some (ssid, pw)) :
    answer .wifiSettings p = .command (.wifiSettings ssid pw) := by
  simp only [answer, answerWifiSettings, h]

/-- Beside the code, only the strings and byte 0 enter the answer of a payload that passes the framing checks (R144, R151). -/
theorem answer_rowOfCode_congr (c : Config) (code : Byte) {p p' : List Byte} (hfields : wifiFields p = wifiFields p')
    (hother : answer .other p = answer .other p') : answer (rowOfCode c code p) p = answer (rowOfCode c code p') p' := by
  unfold rowOfCode
  split
  · rw [hfields]
    cases hw : wifiFields p' with
    | none => rfl
    | some strings => simp only [answer, answerWifiSettings, hfields]
  · split_ifs
    · rfl
    · rfl
    · rfl
    · exact hother

/-- A right payload checksum leaves the answer to the code and the data (R143). -/
theorem decodeCommand_framed (c : Config) (verify : Bool) (code : Byte) {data : List Byte} (h : data.length ≤ 255) :
    decodeCommand c (framedPayload verify code data) verify = decodeCommand c (framedPayload false code data) false := by
  simp only [decodeCommand, classify_framed c _ code data h]
  exact answer_rowOfCode_congr c code (wifiFields_framed verify code h) (by simp only [answer_other_framed])

/-! ### The obligations -/

/-- Settles O24: the length test selects `DEC.DLEN` whatever the code, in either mode. -/
theorem declaredLengthMismatchIsUnknown : Obligations.DeclaredLengthMismatchIsUnknown := by
  intro s code d rest
  refine ⟨fun verify h => exec_row_answered (classify_dlen s.cfg h), fun h b hdone => ?_⟩
  exact exec_csumRpc_row (classify_dlen s.cfg (by simpa [verifyLen] using h)) hdone

/-- Settles O25: a wrong last byte selects `DEC.BADSUM`, and a right one frames the payload (`decodeCommand_framed`). -/
theorem wrongPayloadChecksumIsBadChecksum : Obligations.WrongPayloadChecksumIsBadChecksum := fun s code _ _ hdata =>
  ⟨fun hx => exec_row_answered (classify_badsum s.cfg hdata hx), decodeCommand_framed s.cfg true code hdata⟩

/-- Settles O26: in either mode the payload's fields are the two strings, so it selects `WIFI_SETTINGS`, which answers them. -/
theorem wifiSettingsGivesBothStrings : Obligations.WifiSettingsGivesBothStrings := by
  intro s ssid pw hfit
  have hfields := fun verify => wifiFields_framed_wifiData verify s.cfg.codeWifiSettings ssid pw hfit
  exact framed_row_answers (row := .wifiSettings) (by simp [wifiData]; omega)
    (fun verify => rowOfCode_wifiSettings (hfields verify)) (fun verify => answer_wifiSettings (hfields verify))

/-- Settles O30: a code that is none of the four selects `OTHER`, which answers byte 0. -/
theorem unrecognisedCodePassesThrough : Obligations.UnrecognisedCodePassesThrough := by
  intro s code data hdata hwifi hstate hinfo hnetworks
  exact framed_row_answers (row := .other) hdata (fun _ => rowOfCode_other hwifi hstate hinfo hnetworks _)
    (fun verify => answer_other_framed verify code data)

/-- Settles O31: a row that runs only drives its outputs, and the same codes put the same payload in the same row. -/
theorem decoderRowsHaveNoSideEffect : Obligations.DecoderRowsHaveNoSideEffect := by
  intro row p verify s t h
  obtain ⟨hrow, rfl⟩ := exec_row_eq_next h
  refine ⟨rfl, rfl, rfl, rfl, ⟨rfl, rfl, rfl⟩, fun s' hwifi hstate hinfo hnetworks => ⟨_, exec_row_selected ?_, rfl⟩⟩
  rw [classify_congr_codes hwifi hstate hinfo hnetworks, hrow]

end Sys2Proof.Machine
end

section
/-! Signals: which steps reject or emit, what they emit and what they leave unchanged (R204, R209), and O40, O41. -/

namespace Sys2Proof

/-- Only verify mode tests the payload checksum (R143, R152). -/
theorem verify_of_classify_badsum {c : Config} {p : List Byte} {verify : Bool} (h : classify c p verify = .badsum) :
    verify = true := by
  unfold classify at h
  split at h
  · split at h
    · cases h
    split at h
    · rename_i hsum
      exact hsum.1
    split at h
    · split at h <;> cases h
    · split_ifs at h
  · cases h

/-- At cursor 0 every byte is matched against position 0 (R102). -/
theorem decodeByte_of_pos_zero {c : Context} (h : c.pos = 0) (b : Byte) : decodeByte c b = .instr (.pre0 b) := by
  unfold decodeByte
  rw [h]

end Sys2Proof

namespace Sys2Proof.Machine

/-- Only the row `DEC.BADSUM` answers `BadChecksum` (R143). -/
theorem row_eq_badsum_of_answer {row : DecoderRow} {p : List Byte} (h : answer row p = .command .badChecksum) :
    row = .badsum := by
  cases row with
  | badsum => rfl
  | wifiSettings =>
    simp only [answer, answerWifiSettings] at h
    split at h <;> cases h
  | other =>
    simp only [answer, answerOther] at h
    split at h <;> cases h
  | short | dlen | wifiSettingsOverrun | getCurrentState | getDeviceInfo | getWifiNetworks => cases h

/-- The decoder answers `BadChecksum` in verify mode only (R204). -/
theorem verify_of_decodeCommand_badChecksum {c : Config} {p : List Byte} {verify : Bool}
    (h : decodeCommand c p verify = .command .badChecksum) : verify = true :=
  verify_of_classify_badsum (row_eq_badsum_of_answer h)

/-- What a byte's step emits: nothing, `InvalidRpc`, or a command that the decoder answered without verify mode. -/
theorem Fed.event {s t : State} {b : Byte} (h : Fed s b t) :
    t.ev = .none ∨ t.ev = .err .invalidRpc ∨ ∃ p c, decodeCommand s.cfg p false = .command c ∧ t.ev = .cmd c := by
  cases h with
  | advance _ _ ht => exact .inl (by rw [ht, advanced_ev])
  | reject ht => exact .inl (by rw [ht, rejected_ev])
  | finish _ _ _ _ _ _ _ _ hev => exact hev

/-- A byte's step that rejects or emits is no `ADVANCE`: only the cursor changes, to 0 (R209). -/
theorem Fed.returns {s t : State} {b : Byte} (h : Fed s b t) (hsignal : t.acc = .reject ∨ t.ev ≠ .none) :
    t.pos = 0 ∧ t.buf = s.buf ∧ t.cfg = s.cfg := by
  cases h with
  | advance _ _ ht => simp [ht] at hsignal
  | reject ht =>
    subst ht
    exact ⟨rfl, rfl, rfl⟩
  | finish _ _ _ hpos hbuf hcfg => exact ⟨hpos, hbuf, hcfg⟩

/-- Only a byte's step rejects or emits: the other stimuli drive neither. -/
theorem fed_of_signal {s t : State} (h : step s = .next t) (hsignal : t.acc = .reject ∨ t.ev ≠ .none) :
    ∃ b, Fed s.consume b t := by
  obtain ⟨-, hcases⟩ := step_cases h
  cases hcases with
  | reset _ _ hexec =>
    cases hexec
    simp at hsignal
  | idle _ ht => simp [ht] at hsignal
  | row _ _ _ hexec => simp [(exec_row_eq_next hexec).2] at hsignal
  | feed b _ _ _ _ _ hfed => exact ⟨b, hfed⟩

/-- Settles O40: an event is a byte's, where an error is `InvalidRpc` and a command was decoded without verify mode, in which
alone `BadChecksum` is answered. -/
theorem onlyInvalidRpcIsEverSignalled : Obligations.OnlyInvalidRpcIsEverSignalled := by
  refine ⟨fun s t h => ?_, fun _ _ _ => verify_of_decodeCommand_badChecksum⟩
  by_cases hev : t.ev = .none
  · simp [hev]
  obtain ⟨b, hfed⟩ := fed_of_signal h (.inr hev)
  rcases hfed.event with hnone | herr | ⟨p, c, hdec, hcmd⟩
  · exact absurd hnone hev
  · simp [herr]
  · have hc : c ≠ .badChecksum := by
      rintro rfl
      cases verify_of_decodeCommand_badChecksum hdec
    simp [hcmd, hc]

/-- Settles O41: such a step is a byte's and returns the cursor to 0 (`Fed.returns`), where nothing is readable and position 0
is what the next byte is matched against. -/
theorem rejectsAndEventsOnlyReturnToZero : Obligations.RejectsAndEventsOnlyReturnToZero := by
  intro s t h hsignal
  obtain ⟨b, hfed⟩ := fed_of_signal h hsignal
  obtain ⟨hpos, hbuf, hcfg⟩ := hfed.returns hsignal
  exact ⟨hpos, hbuf, hcfg, fun i => bufRead_of_ge (by omega), decodeByte_of_pos_zero hpos⟩

end Sys2Proof.Machine
end

section
/-! Decoding and encoding agree: O7, O6. -/

namespace Sys2Proof

/-- Whatever class a byte selects, its instruction is well-formed and is encoded by presenting that byte (R68, R78). -/
theorem Selects.wf_and_encode_stim {ctx : Context} {b : Byte} {i : Instr} (h : Selects ctx b i) (c : Config) :
    i.wf c = true ∧ (encode i).stim = .feed b := by
  cases h <;> exact ⟨rfl, rfl⟩

/-- A decoder row's operands are well-formed exactly when the decoder puts them in that row (R140). -/
theorem DecoderRow.wf_toInstr (c : Config) (row : DecoderRow) (p : List Byte) (verify : Bool) :
    (row.toInstr p verify).wf c = decide (classify c p verify = row) := by
  cases row <;> rfl

theorem DecoderRow.encode_toInstr_stim (row : DecoderRow) (p : List Byte) (verify : Bool) :
    (encode (row.toInstr p verify)).stim = .decode p verify := by
  cases row <;> rfl

/-- The encoding of a well-formed instruction decodes to it, constructor by constructor. -/
theorem decode_encode (i : Instr) : Laws.RoundTrip.Statement i :=
  match i with
  | .pre0 b => Laws.RoundTrip.pre0 b
  | .pre1 b => Laws.RoundTrip.pre1 b
  | .pre2 b => Laws.RoundTrip.pre2 b
  | .pre3 b => Laws.RoundTrip.pre3 b
  | .pre4 b => Laws.RoundTrip.pre4 b
  | .pre5 b => Laws.RoundTrip.pre5 b
  | .ver b => Laws.RoundTrip.ver b
  | .typeByte b => Laws.RoundTrip.typeByte b
  | .lenByte b => Laws.RoundTrip.lenByte b
  | .pay b => Laws.RoundTrip.pay b
  | .csumBad b => Laws.RoundTrip.csumBad b
  | .csumRpc b => Laws.RoundTrip.csumRpc b
  | .csumOther b => Laws.RoundTrip.csumOther b
  | .idle => Laws.RoundTrip.idle
  | .reset => Laws.RoundTrip.reset
  | .decShort p v => Laws.RoundTrip.decShort p v
  | .decDlen p v => Laws.RoundTrip.decDlen p v
  | .decBadsum p v => Laws.RoundTrip.decBadsum p v
  | .wifiSettings p v => Laws.RoundTrip.wifiSettings p v
  | .wifiSettingsOverrun p v => Laws.RoundTrip.wifiSettingsOverrun p v
  | .getCurrentState p v => Laws.RoundTrip.getCurrentState p v
  | .getDeviceInfo p v => Laws.RoundTrip.getDeviceInfo p v
  | .getWifiNetworks p v => Laws.RoundTrip.getWifiNetworks p v
  | .otherCode p v => Laws.RoundTrip.otherCode p v

/-- What decodes is well-formed, and its encoding presents what was presented, but for the byte that `RESET` loses (R26). -/
theorem wf_and_encode_of_decode {c : Config} {e : Encoded} {i : Instr} (h : decode c e = .instr i) :
    i.wf c = true ∧ (e.stim = (encode i).stim ∨ i = .reset ∧ ∃ inp, e.stim = .ports true inp) := by
  obtain ⟨ctx, stim⟩ := e
  match stim with
  | .ports true inp =>
    cases h
    exact ⟨rfl, .inr ⟨rfl, inp, rfl⟩⟩
  | .ports false none =>
    cases h
    exact ⟨rfl, .inl rfl⟩
  | .ports false (some b) =>
    obtain ⟨hwf, hstim⟩ := (selects_of_decodeByte h).wf_and_encode_stim c
    exact ⟨hwf, .inl hstim.symm⟩
  | .decode p verify =>
    cases h
    exact ⟨by rw [DecoderRow.wf_toInstr, decide_eq_true rfl], .inl (DecoderRow.encode_toInstr_stim _ p verify).symm⟩

/-- Settles O7: encode then decode is `decode_encode`, and decode then encode goes stimulus by stimulus. -/
theorem decodeAndEncodeAgree : Obligations.DecodeAndEncodeAgree := fun c i =>
  ⟨decode_encode i c, fun _ => wf_and_encode_of_decode⟩

/-- Settles O6: closed words, evaluated. -/
theorem writtenWordsDecode : Obligations.WrittenWordsDecode := by
  refine ⟨?_, ?_, ?_, ?_, ?_, ?_⟩ <;> decide

end Sys2Proof
end

section
/-! A step fetches what its stimulus decodes to, keeps the configuration and takes one stimulus: O3, O4, O5, O9. -/

namespace Sys2Proof

/-- `Config.wf` in the terms of R7: an open code is distinct by its reading. -/
theorem Config.wf_iff {c : Config} : c.wf = true ↔ 9 ≤ c.bufCap ∧ c.CodesDistinct := by
  refine ⟨fun h => ⟨nine_le_bufCap h, codesDistinct h⟩, fun ⟨hcap, hcodes⟩ => ?_⟩
  have hwifi := hcodes.networks_wifi
  have hstate := hcodes.networks_state
  have hinfo := hcodes.networks_info
  unfold Config.wf
  cases hg : c.codeGetWifiNetworks with
  | none => simp [hcap, hcodes.wifi_state, hcodes.wifi_info, hcodes.state_info]
  | some g =>
    simp only [Config.wifiNetworksCode, hg, Option.getD_some] at hwifi hstate hinfo
    simp [hcap, hcodes.wifi_state, hcodes.wifi_info, hcodes.state_info, hwifi, hstate, hinfo]

end Sys2Proof

namespace Sys2Proof.Machine

/-! ### What the common actions answer -/

theorem advance_goes_on (b : Byte) (s : State) : ∃ t, advance b s = .next t := by
  by_cases hcap : s.pos < s.cfg.bufCap
  · exact ⟨_, advance_of_lt b hcap⟩
  · exact ⟨_, advance_of_ge b (Nat.le_of_not_lt hcap)⟩

theorem expect_goes_on (want b : Byte) (s : State) : ∃ t, expect want b s = .next t := by
  unfold expect
  split
  · exact advance_goes_on b s
  · exact ⟨_, reject_eq s⟩

theorem deliver_goes_on (p : List Byte) (r : Verdict) (s : State) : ∃ t, deliver p r s = .next t := by
  obtain ⟨t, ht, -⟩ := deliver_spec p r s
  exact ⟨t, ht⟩

/-! ### The one refusal of a meaning -/

/-- A meaning never refuses the configuration (log entries 12 and 14). -/
def ConfigNotRefused (r : Result) : Prop := r ≠ .refused .illFormedConfig

theorem configNotRefused_of_next {r : Result} (h : ∃ t, r = .next t) : ConfigNotRefused r := by
  obtain ⟨t, rfl⟩ := h
  simp [ConfigNotRefused]

theorem whenClassIs_configNotRefused {i : Instr} {b : Byte} {s : State} {act : Result} (h : ConfigNotRefused act) :
    ConfigNotRefused (whenClassIs i b s act) := by
  unfold whenClassIs
  split
  · exact h
  · simp [ConfigNotRefused]

theorem runRow_configNotRefused (row : DecoderRow) (result : Verdict) (p : List Byte) (verify : Bool) (s : State) :
    ConfigNotRefused (runRow row result p verify s) := by
  unfold runRow
  split <;> simp [ConfigNotRefused]

theorem exec_configNotRefused (i : Instr) (s : State) : ConfigNotRefused (exec i s) := by
  cases i with
  | pre0 | pre1 | pre2 | pre3 | pre4 | pre5 | ver =>
    exact whenClassIs_configNotRefused (configNotRefused_of_next (expect_goes_on _ _ s))
  | typeByte | lenByte | pay => exact whenClassIs_configNotRefused (configNotRefused_of_next (advance_goes_on _ s))
  | csumBad | csumOther => exact whenClassIs_configNotRefused (configNotRefused_of_next ⟨_, rfl⟩)
  | csumRpc =>
    apply whenClassIs_configNotRefused
    split
    · simp [ConfigNotRefused]
    · exact configNotRefused_of_next (deliver_goes_on _ _ s)
  | idle | reset => exact configNotRefused_of_next ⟨_, rfl⟩
  | decShort | decDlen | decBadsum | wifiSettings | wifiSettingsOverrun | getCurrentState | getDeviceInfo
  | getWifiNetworks | otherCode => exact runRow_configNotRefused _ _ _ _ s

/-! ### The step -/

/-- The step runs what the stimulus decodes to; the invariants are asked of a byte only (log entry 13). -/
theorem step_eq_exec_of_feed_assertions {s : State} {i : Instr} (hwf : s.cfg.wf = true)
    (hassert : (∃ b, s.stimulus = .feed b) → s.assertions = true)
    (hsel : decode s.cfg ⟨s.context, s.stimulus⟩ = .instr i) : step s = exec i s.consume := by
  have hfetch : fetch s = .instr i := by
    unfold fetch
    split
    · exact hsel
    · exact hsel
    · next b hstim =>
      rw [if_pos (hassert ⟨b, hstim⟩)]
      exact hsel
    · exact hsel
  simp only [step, hwf, if_true, hfetch]

theorem consume_of_inq {s : State} {x : Stimulus} {rest : List Stimulus} (h : s.inq = x :: rest) :
    s.consume = { s with inq := rest } := by simp only [State.consume, h, List.tail_cons]

theorem consume_of_inq_nil {s : State} (h : s.inq = []) : s.consume = s := by
  cases s
  cases h
  rfl

theorem step_eq_refused_illFormedConfig_iff (s : State) : step s = .refused .illFormedConfig ↔ ¬ s.cfg.wf = true := by
  unfold step
  split
  · next hwf =>
    refine iff_of_false ?_ (not_not.mpr hwf)
    split
    · exact exec_configNotRefused _ _
    · simp
  · next hwf => exact iff_of_true rfl hwf

/-- No byte's step changes the configuration or the stimuli. -/
theorem Fed.cfg_inq {s t : State} {b : Byte} (h : Fed s b t) : t.cfg = s.cfg ∧ t.inq = s.inq := by
  cases h with
  | advance _ _ ht => exact ⟨by rw [ht, advanced_cfg], by rw [ht, advanced_inq]⟩
  | reject ht => exact ⟨by rw [ht, rejected_cfg], by rw [ht, rejected_inq]⟩
  | finish _ _ _ _ _ hcfg hinq => exact ⟨hcfg, hinq⟩

/-- Settles O9: what the head of the list decodes to, with the stimulus taken; past its end the stimulus is `IDLE`. -/
theorem stepRunsTheDecodedInstruction : Obligations.StepRunsTheDecodedInstruction := by
  refine ⟨fun s x rest i hwf hinq hassert hsel => ?_, fun s hwf hinq => ?_⟩
  · have hstim := stimulus_of_inq hinq
    rw [← consume_of_inq hinq]
    exact step_eq_exec_of_feed_assertions hwf (by rwa [hstim]) (by rwa [hstim])
  · have hstim : s.stimulus = .noByte := by simp only [State.stimulus, hinq]
    rw [step_eq_exec_of_feed_assertions (i := .idle) hwf (by simp [hstim]) (by rw [hstim]; rfl), consume_of_inq_nil hinq]

/-- Settles O4: no meaning refuses the configuration, so the step does exactly where R7's conditions (`Config.wf_iff`) fail. -/
theorem onlyIllFormedConfigurationsAreRefused : Obligations.OnlyIllFormedConfigurationsAreRefused := by
  intro s
  rw [step_eq_refused_illFormedConfig_iff, Config.wf_iff]
  constructor
  · intro h
    by_contra hnone
    simp only [not_or] at hnone
    obtain ⟨hcap, h1, h2, h3, h4, h5, h6⟩ := hnone
    exact h ⟨Nat.le_of_not_lt hcap, h1, h2, h3, h4, h5, h6⟩
  · rintro h ⟨hcap, h1, h2, h3, h4, h5, h6⟩
    rcases h with h | h | h | h | h | h | h
    · omega
    all_goals contradiction

/-- Settles O5: each case of the step works on the state with its stimulus taken. -/
theorem everyStepKeepsConfigurationAndTakesOneStimulus : Obligations.EveryStepKeepsConfigurationAndTakesOneStimulus := by
  intro s t h
  obtain ⟨-, hcases⟩ := step_cases h
  cases hcases with
  | reset _ _ hexec =>
    cases hexec
    exact ⟨rfl, rfl⟩
  | idle _ ht =>
    subst ht
    exact ⟨rfl, rfl⟩
  | row _ _ _ hexec =>
    obtain ⟨-, rfl⟩ := exec_row_eq_next hexec
    exact ⟨rfl, rfl⟩
  | feed _ _ _ _ _ _ hfed => exact hfed.cfg_inq

/-- Settles O3: `RESET` writes every field of the block, and `rst` selects it whatever is on `in`. -/
theorem resetInstructionRestoresTheResetState : Obligations.ResetInstructionRestoresTheResetState := by
  refine ⟨fun _ => rfl, fun s inp rest hwf hinq => ?_⟩
  have hstim := stimulus_of_inq hinq
  rw [step_eq_exec_of_feed_assertions (i := .reset) hwf (by simp [hstim]) (by rw [hstim]; rfl), consume_of_inq hinq]
  rfl

end Sys2Proof.Machine
end

section
/-! The invariant of a safe run: it holds at reset, every step keeps it, and under it no step stops: O1, O2, O42, O43. -/

namespace Sys2Proof.Machine

/-! ### The invariant along the updates of the state -/

theorem State.Inv.assertions_prop {s : State} (h : s.Inv) : Assertions s := by
  obtain ⟨-, -, -, hassert⟩ := h
  exact (assertions_iff s).mp hassert

theorem Assertions.congr {s t : State} (h : Assertions s) (hcfg : t.cfg = s.cfg) (hpos : t.pos = s.pos)
    (hbuf : t.buf = s.buf) : Assertions t := by
  obtain ⟨h1, h2, h3, h3', h4⟩ := h
  constructor <;> rw [hpos] <;> simp only [hcfg, hbuf] <;> assumption

theorem Assertions.consume {s : State} (h : Assertions s) : Assertions s.consume :=
  h.congr (s := s) (t := s.consume) rfl rfl rfl

/-- The invariant speaks of the configuration, the cursor and the buffer only. -/
theorem State.Inv.congr {s t : State} (h : s.Inv) (hcfg : t.cfg = s.cfg) (hpos : t.pos = s.pos) (hbuf : t.buf = s.buf) :
    t.Inv := by
  have hassert := (assertions_iff t).mpr (h.assertions_prop.congr hcfg hpos hbuf)
  obtain ⟨hwf, hcanon, hwithin, -⟩ := h
  exact ⟨by rw [hcfg, hwf], by rw [hbuf, hcanon], by rw [hbuf, hcfg, hwithin], hassert⟩

/-- The return to position 0 with the buffer as it was (R209). -/
theorem State.Inv.toZero {s t : State} (h : s.Inv) (hcfg : t.cfg = s.cfg) (hpos : t.pos = 0) (hbuf : t.buf = s.buf) :
    t.Inv := by
  obtain ⟨hwf, hcanon, hwithin, -⟩ := h
  exact ⟨by rw [hcfg, hwf], by rw [hbuf, hcanon], by rw [hbuf, hcfg, hwithin], assertions_of_pos_zero hpos⟩

/-- An empty buffer with the cursor at 0 (R241). -/
theorem inv_of_buf_nil {t : State} (hwf : t.cfg.wf = true) (hpos : t.pos = 0) (hbuf : t.buf = []) : t.Inv :=
  ⟨hwf, by rw [hbuf, Memory.wf_nil], by rw [hbuf, Memory.within_nil], assertions_of_pos_zero hpos⟩

theorem State.Inv.advanced {s : State} {b : Byte} (h : s.Inv) (hcap : s.pos < s.cfg.bufCap) (hb : Admits s b) :
    (advanced b s).Inv := by
  have hassert := (assertions_iff _).mpr (h.assertions_prop.advanced hcap hb)
  obtain ⟨hwf, hcanon, hwithin, -⟩ := h
  exact ⟨hwf, Memory.wf_write _ _ _ hcanon, Memory.within_write _ _ _ _ hcap hwithin, hassert⟩

theorem State.Inv.consume {s : State} (h : s.Inv) : s.consume.Inv := h.congr rfl rfl rfl

/-- A byte's step keeps the invariant: it stores an admitted byte, or returns to position 0. -/
theorem Fed.inv {s t : State} {b : Byte} (h : Fed s b t) (hinv : s.Inv) : t.Inv := by
  cases h with
  | advance hcap hb ht =>
    subst ht
    exact hinv.advanced hcap hb
  | reject ht => exact hinv.toZero (by rw [ht, rejected_cfg]) (by rw [ht, rejected_pos]) (by rw [ht, rejected_buf])
  | finish _ _ _ hpos hbuf hcfg => exact hinv.toZero hcfg hpos hbuf

/-! ### Progress -/

theorem whenClassIs_goes_on {i : Instr} {b : Byte} {s : State} {act : Result} (h : decodeByte s.context b = .instr i)
    (hact : ∃ t, act = .next t) : ∃ t, whenClassIs i b s act = .next t := by
  rwa [whenClassIs_selected act h]

/-- Under the assertions the meaning of a byte's class goes on: `CSUM.RPC` reads a payload that INV2 has defined. -/
theorem Assertions.exec_goes_on {s : State} (hs : Assertions s) {b : Byte} {i : Instr} (h : Selects s.context b i) :
    ∃ t, exec i s = .next t := by
  have hsel := hs.decodeByte_eq_instr_iff.mpr h
  cases h with
  | pre0 | pre1 | pre2 | pre3 | pre4 | pre5 | ver => exact whenClassIs_goes_on hsel (expect_goes_on _ b s)
  | typeByte | lenByte | pay => exact whenClassIs_goes_on hsel (advance_goes_on b s)
  | csumBad | csumOther => exact whenClassIs_goes_on hsel ⟨_, rfl⟩
  | csumRpc l hlen h hsum htype =>
    obtain ⟨body, hat, hb, h3⟩ := hs.selects_csumRpc_iff.mp (.csumRpc l hlen h hsum htype)
    rw [exec_csumRpc ⟨body, hat, h3, hb, rfl⟩]
    exact deliver_goes_on _ _ s

/-- Under the assertions a byte's step runs the class that the byte selects. -/
theorem Assertions.step_feed {s : State} (hs : Assertions s) {b : Byte} {i : Instr} (hwf : s.cfg.wf = true)
    (hstim : s.stimulus = .feed b) (h : Selects s.context b i) : step s = exec i s.consume := by
  refine step_eq_exec hwf ((assertions_iff s).mpr hs) ?_
  rw [hstim]
  exact hs.decodeByte_eq_instr_iff.mpr h

/-! ### The obligations -/

/-- Settles O1: the reset values, read off. -/
theorem resetLeavesCursorZeroBufferUndefined : Obligations.ResetLeavesCursorZeroBufferUndefined :=
  ⟨rfl, Memory.read_nil, rfl, rfl⟩

/-- Settles O2: the default configuration is well-formed and the buffer is empty. -/
theorem resetMeetsTheInvariant : Obligations.ResetMeetsTheInvariant := inv_of_buf_nil (by decide) rfl rfl

/-- Settles O42: only `RESET` and a byte's step touch the cursor or the buffer; `RESET` empties both, and a byte's step keeps the
invariant (`Fed.inv`). -/
theorem everyStepKeepsTheInvariant : Obligations.EveryStepKeepsTheInvariant := by
  intro s t hinv h
  obtain ⟨hwf, hcases⟩ := step_cases h
  cases hcases with
  | reset _ _ hexec =>
    cases hexec
    exact inv_of_buf_nil hwf rfl rfl
  | idle _ ht =>
    subst ht
    exact hinv.congr rfl rfl rfl
  | row _ _ _ hexec =>
    obtain ⟨-, rfl⟩ := exec_row_eq_next hexec
    exact hinv.congr rfl rfl rfl
  | feed _ _ _ _ _ _ hfed => exact hfed.inv hinv.consume

/-- Settles O43: under the assertions every byte has a class whose meaning goes on, and the other stimuli read nothing of the
buffer. -/
theorem noStopUnderTheInvariant : Obligations.NoStopUnderTheInvariant := by
  intro s hinv
  have hs := hinv.assertions_prop
  obtain ⟨hwf, -, -, hassert⟩ := hinv
  match hstim : s.stimulus with
  | .ports true inp => exact ⟨_, step_eq_exec (i := .reset) hwf hassert (by rw [hstim]; rfl)⟩
  | .ports false none => exact ⟨_, step_eq_exec (i := .idle) hwf hassert (by rw [hstim]; rfl)⟩
  | .ports false (some b) =>
    obtain ⟨i, hi⟩ := hs.exists_selects b
    rw [hs.step_feed hwf hstim hi]
    exact hs.consume.exec_goes_on (by rwa [context_consume])
  | .decode p verify =>
    rw [step_eq_exec (i := (classify s.cfg p verify).toInstr p verify) hwf hassert (by rw [hstim]; rfl)]
    exact ⟨_, exec_row_selected rfl⟩

end Sys2Proof.Machine
end

section
/-! Two states that agree below the cursor step alike: O45. -/

namespace Sys2Proof.Machine

/-! ### What the bytes below the cursor determine -/

theorem AgreeBelowCursor.symm {s t : State} (h : AgreeBelowCursor s t) : AgreeBelowCursor t s := by
  obtain ⟨hcfg, hpos, hinq, hfree, hbuf⟩ := h
  exact ⟨hcfg.symm, hpos.symm, hinq.symm, hfree.symm, fun a ha => (hbuf a (hpos ▸ ha)).symm⟩

theorem AgreeBelowCursor.bufReadRange_eq {s t : State} (h : AgreeBelowCursor s t) (i n : Nat) :
    bufReadRange t i n = bufReadRange s i n := by
  obtain ⟨-, hpos, -, -, hbuf⟩ := h
  exact bufReadRange_congr hpos hbuf i n

theorem AgreeBelowCursor.bufRead_eq {s t : State} (h : AgreeBelowCursor s t) (i : Nat) : bufRead t i = bufRead s i := by
  obtain ⟨-, hpos, -, -, hbuf⟩ := h
  by_cases hi : i < s.pos
  · rw [bufRead_of_lt hi, bufRead_of_lt (hpos ▸ hi), hbuf i hi]
  · rw [bufRead_of_ge (Nat.le_of_not_lt hi), bufRead_of_ge (by omega)]

theorem AgreeBelowCursor.context_eq {s t : State} (h : AgreeBelowCursor s t) : t.context = s.context := by
  have ⟨_, hpos, _⟩ := h
  simp only [State.context, h.bufRead_eq, h.bufReadRange_eq, hpos]

theorem AgreeBelowCursor.payload_eq {s t : State} (h : AgreeBelowCursor s t) : payload t = payload s := by
  simp only [payload, h.bufRead_eq, h.bufReadRange_eq]

/-- The assertions read nothing at or beyond the cursor. -/
theorem Assertions.of_agree {s t : State} (hs : Assertions s) (h : AgreeBelowCursor s t) : Assertions t := by
  obtain ⟨hcfg, hpos, -, -, hbuf⟩ := h
  constructor
  · rw [hcfg, hpos]
    exact hs.inv1
  · intro i hi
    rw [hpos] at hi
    rw [hbuf i hi]
    exact hs.inv2 i hi
  · intro i hi h6
    rw [hpos] at hi
    rw [hbuf i hi]
    exact hs.inv3_preamble i hi h6
  · intro h7
    rw [hpos] at h7
    rw [hbuf 6 (by omega), hcfg]
    exact hs.inv3_version h7
  · intro h9
    rw [hpos] at h9 ⊢
    rw [hbuf 8 (by omega)]
    exact hs.inv4 h9

theorem AgreeBelowCursor.assertions_eq {s t : State} (h : AgreeBelowCursor s t) : t.assertions = s.assertions := by
  rw [Bool.eq_iff_iff, assertions_iff, assertions_iff]
  exact ⟨fun ht => ht.of_agree h.symm, fun hs => hs.of_agree h⟩

theorem AgreeBelowCursor.stimulus_eq {s t : State} (h : AgreeBelowCursor s t) : t.stimulus = s.stimulus := by
  obtain ⟨-, -, hinq, -⟩ := h
  simp only [State.stimulus, hinq]

theorem AgreeBelowCursor.fetch_eq {s t : State} (h : AgreeBelowCursor s t) : fetch t = fetch s := by
  have ⟨hcfg, _⟩ := h
  simp only [fetch, h.stimulus_eq, h.context_eq, h.assertions_eq, hcfg]

theorem AgreeBelowCursor.consume {s t : State} (h : AgreeBelowCursor s t) : AgreeBelowCursor s.consume t.consume := by
  obtain ⟨hcfg, hpos, hinq, hfree, hbuf⟩ := h
  exact ⟨hcfg, hpos, by simp only [State.consume_inq, hinq], hfree, hbuf⟩

/-! ### Outcomes that agree -/

/-- Two outcomes that are observed alike: the same stop, or next states that agree below the cursor, with the same outputs. -/
def ResultsAgree (r r' : Result) : Prop :=
  match r, r' with
  | .next s, .next t => AgreeBelowCursor s t ∧ t.acc = s.acc ∧ t.ev = s.ev
  | .fault e, .fault e' => e = e'
  | .refused e, .refused e' => e = e'
  | _, _ => False

theorem resultsAgree_next {s t : State} (h : AgreeBelowCursor s t) (hacc : t.acc = s.acc) (hev : t.ev = s.ev) :
    ResultsAgree (.next s) (.next t) := ⟨h, hacc, hev⟩

/-- At position 0 nothing of the buffer need agree (R121). -/
theorem agreeBelowCursor_of_pos_zero {s t : State} (hs : s.pos = 0) (ht : t.pos = 0) (hcfg : t.cfg = s.cfg)
    (hinq : t.inq = s.inq) (hfree : t.free = s.free) : AgreeBelowCursor s t :=
  ⟨hcfg, by rw [hs, ht], hinq, hfree, fun a ha => by omega⟩

section
variable {s t : State} (h : AgreeBelowCursor s t)
include h

/-- Driving the same outputs keeps the agreement. -/
theorem AgreeBelowCursor.drive_agrees (acc : Acc) (ev : Event) (cmdCode : Option Byte) (dec : Option Verdict) :
    ResultsAgree (.next (s.drive acc ev cmdCode dec)) (.next (t.drive acc ev cmdCode dec)) :=
  resultsAgree_next h rfl rfl

theorem AgreeBelowCursor.toStart : AgreeBelowCursor s.toStart t.toStart := by
  obtain ⟨hcfg, -, hinq, hfree, -⟩ := h
  exact agreeBelowCursor_of_pos_zero rfl rfl hcfg hinq hfree

theorem AgreeBelowCursor.reject_agrees : ResultsAgree (reject s) (reject t) := h.toStart.drive_agrees _ _ _ _

/-- The byte stored at the cursor is the one entry that comes below it. -/
theorem AgreeBelowCursor.advanced_agree (b : Byte) : AgreeBelowCursor (advanced b s) (advanced b t) := by
  obtain ⟨hcfg, hpos, hinq, hfree, hbuf⟩ := h
  refine ⟨hcfg, by rw [advanced_pos, advanced_pos, hpos], hinq, hfree, fun a ha => ?_⟩
  rw [advanced_pos] at ha
  rw [advanced_buf, advanced_buf, hpos]
  by_cases hat : a = s.pos
  · rw [hat, Memory.read_write_same, Memory.read_write_same]
  · rw [Memory.read_write_other _ _ hat, Memory.read_write_other _ _ hat, hbuf a (by omega)]

theorem AgreeBelowCursor.advance_agrees (b : Byte) : ResultsAgree (advance b s) (advance b t) := by
  have ⟨hcfg, hpos, _⟩ := h
  by_cases hcap : s.pos < s.cfg.bufCap
  · rw [advance_of_lt b hcap, advance_of_lt b (by rwa [hpos, hcfg])]
    exact resultsAgree_next (h.advanced_agree b) rfl rfl
  · rw [advance_of_ge b (by omega), advance_of_ge b (by rw [hpos, hcfg]; omega)]
    exact h.reject_agrees

theorem AgreeBelowCursor.expect_agrees (want b : Byte) : ResultsAgree (expect want b s) (expect want b t) := by
  unfold expect
  split
  · exact h.advance_agrees b
  · exact h.reject_agrees

theorem AgreeBelowCursor.whenClassIs_agrees (i : Instr) (b : Byte) {act act' : Result} (hact : ResultsAgree act act') :
    ResultsAgree (whenClassIs i b s act) (whenClassIs i b t act') := by
  unfold whenClassIs
  rw [h.context_eq]
  split
  · exact hact
  · rfl

theorem AgreeBelowCursor.runRow_agrees (row : DecoderRow) (result : Verdict) (p : List Byte) (verify : Bool) :
    ResultsAgree (runRow row result p verify s) (runRow row result p verify t) := by
  have ⟨hcfg, _⟩ := h
  unfold runRow
  rw [hcfg]
  split
  · exact h.drive_agrees _ _ _ _
  · rfl

/-- The free value of an empty payload's `cmd_code` is no part of `acc` and `ev`, and both counters advance. -/
theorem AgreeBelowCursor.deliver_agrees (p : List Byte) (r : Verdict) : ResultsAgree (deliver p r s) (deliver p r t) := by
  have ⟨hcfg, _, hinq, hfree, _⟩ := h
  match r, p with
  | .malformed, _ => exact h.toStart.drive_agrees _ _ _ _
  | .command _, _ :: _ => exact h.toStart.drive_agrees _ _ _ _
  | .command _, [] =>
    exact resultsAgree_next (agreeBelowCursor_of_pos_zero rfl rfl hcfg hinq (congrArg (· + 1) hfree)) rfl rfl

/-- Each meaning reads the cursor, the bytes below it and the configuration only. -/
theorem AgreeBelowCursor.exec_agrees (i : Instr) : ResultsAgree (exec i s) (exec i t) := by
  have ⟨hcfg, _, hinq, hfree, _⟩ := h
  cases i with
  | pre0 | pre1 | pre2 | pre3 | pre4 | pre5 => exact h.whenClassIs_agrees _ _ (h.expect_agrees _ _)
  | ver b =>
    apply h.whenClassIs_agrees
    rw [hcfg]
    exact h.expect_agrees s.cfg.version b
  | typeByte | lenByte | pay => exact h.whenClassIs_agrees _ _ (h.advance_agrees _)
  | csumBad | csumOther => exact h.whenClassIs_agrees _ _ (h.toStart.drive_agrees _ _ _ _)
  | csumRpc b =>
    apply h.whenClassIs_agrees
    rw [h.payload_eq, hcfg]
    split
    · rfl
    · exact h.deliver_agrees _ _
  | idle => exact h.drive_agrees _ _ _ _
  | reset => exact resultsAgree_next (agreeBelowCursor_of_pos_zero rfl rfl hcfg hinq hfree) rfl rfl
  | decShort | decDlen | decBadsum | wifiSettings | wifiSettingsOverrun | getCurrentState | getDeviceInfo
  | getWifiNetworks | otherCode => exact h.runRow_agrees _ _ _ _

theorem AgreeBelowCursor.step_agrees : ResultsAgree (step s) (step t) := by
  have ⟨hcfg, _⟩ := h
  unfold step
  rw [hcfg, h.fetch_eq]
  split
  · split
    · exact h.consume.exec_agrees _
    · rfl
  · rfl

end

/-! ### Runs -/

theorem sameObservation_cons {agree : State → State → Prop} (o : Acc × Event)
    {x y : Option (List (Acc × Event) × State)} (h : SameObservation x y agree) :
    SameObservation (x.map fun r => (o :: r.1, r.2)) (y.map fun r => (o :: r.1, r.2)) agree := by
  cases x <;> cases y
  case some.some r r' => exact ⟨congrArg (o :: ·) h.1, h.2⟩
  all_goals exact h

theorem AgreeBelowCursor.observe_agrees (n : Nat) {s t : State} (h : AgreeBelowCursor s t) :
    SameObservation (observe n s) (observe n t) AgreeBelowCursor := by
  induction n generalizing s t with
  | zero => exact ⟨rfl, h⟩
  | succ n ih =>
    have hstep := h.step_agrees
    unfold observe
    generalize step s = r at hstep
    generalize step t = r' at hstep
    cases r <;> cases r'
    case next.next s' t' =>
      obtain ⟨hagree, hacc, hev⟩ := hstep
      simp only [hacc, hev]
      exact sameObservation_cons _ (ih hagree)
    case fault.fault | refused.refused => trivial
    all_goals exact hstep.elim

/-- Settles O45: a step reads nothing at or beyond the cursor (`step_agrees`), by induction on the number of steps. -/
theorem staleBytesAreNeverObserved : Obligations.StaleBytesAreNeverObserved :=
  ⟨fun n _ _ h => h.observe_agrees n, fun _ _ => agreeBelowCursor_of_pos_zero⟩

end Sys2Proof.Machine
end

section
/-! What a step stores and when it drives its outputs: O35, O36, O37, O39. -/

namespace Sys2Proof.Machine

/-- Every entry of `t`'s buffer but the one at `s`'s cursor is that of `s`; where that one changes, `b` was accepted there. -/
def StoresOnlyAtCursor (s : State) (b : Byte) (t : State) : Prop :=
  (∀ a, a ≠ s.pos → t.buf.read a = s.buf.read a)
    ∧ (t.buf.read s.pos ≠ s.buf.read s.pos → t.buf.read s.pos = some b ∧ t.pos = s.pos + 1 ∧ t.acc = .accept)

theorem storesOnlyAtCursor_of_buf_eq {s t : State} (b : Byte) (h : t.buf = s.buf) : StoresOnlyAtCursor s b t :=
  ⟨fun _ _ => by rw [h], fun hne => absurd (by rw [h]) hne⟩

/-- Of a byte's three outcomes only `ADVANCE` stores (R115, R209). -/
theorem Fed.storesOnlyAtCursor {s t : State} {b : Byte} (h : Fed s b t) : StoresOnlyAtCursor s b t := by
  cases h with
  | advance _ _ ht =>
    subst ht
    exact ⟨fun a ha => Memory.read_write_other _ _ ha, fun _ => ⟨Memory.read_write_same _ _ _, rfl, rfl⟩⟩
  | reject ht => exact storesOnlyAtCursor_of_buf_eq b (by rw [ht, rejected_buf])
  | finish _ _ _ _ hbuf => exact storesOnlyAtCursor_of_buf_eq b hbuf

theorem Fed.acc_ne_none {s t : State} {b : Byte} (h : Fed s b t) : t.acc ≠ .none := by
  cases h with
  | advance _ _ ht => simp [ht]
  | reject ht => simp [ht]
  | finish _ _ _ _ _ _ _ hacc => exact hacc

/-- A byte's step emits at the checksum position only. -/
theorem Fed.at_checksum_of_event {s t : State} {b : Byte} (h : Fed s b t) (hev : t.ev ≠ .none) :
    ∃ l, bufRead s 8 = some l ∧ s.pos = 9 + l.toNat := by
  cases h with
  | advance _ _ ht => simp [ht] at hev
  | reject ht => simp [ht] at hev
  | finish l hlen hat => exact ⟨l, hlen, hat⟩

/-- A step is a byte's, or it stores nothing but for `RESET` and drives neither output. -/
theorem fed_or_quiet {s t : State} (h : step s = .next t) :
    (∃ b, s.stimulus = .feed b ∧ Fed s.consume b t)
      ∨ (∀ b, s.stimulus ≠ .feed b) ∧ t.acc = .none ∧ t.ev = .none
        ∧ ((∀ inp, s.stimulus ≠ .ports true inp) → t.buf = s.buf) := by
  obtain ⟨-, hcases⟩ := step_cases h
  cases hcases with
  | reset inp hstim hexec =>
    cases hexec
    exact .inr ⟨by simp [hstim], rfl, rfl, fun hne => absurd hstim (hne inp)⟩
  | idle hstim ht =>
    subst ht
    exact .inr ⟨by simp [hstim], rfl, rfl, fun _ => rfl⟩
  | row _ _ hstim hexec =>
    obtain ⟨-, rfl⟩ := exec_row_eq_next hexec
    exact .inr ⟨by simp [hstim], rfl, rfl, fun _ => rfl⟩
  | feed b _ hstim _ _ _ hfed => exact .inl ⟨b, hstim, hfed⟩

/-! ### The obligations -/

/-- Settles O35: both sides of the cursor. -/
theorem readsAtOrBeyondTheCursorAreUndefined : Obligations.ReadsAtOrBeyondTheCursorAreUndefined := fun _ _ =>
  ⟨bufRead_of_ge, bufRead_of_lt⟩

/-- Settles O36: the written buffer is `Memory.write`'s, and its laws are the clauses. -/
theorem bufferWriteStoresOneByte : Obligations.BufferWriteStoresOneByte := by
  intro s i b
  refine ⟨fun hi hcap => ?_, fun hout => ?_⟩
  · subst hi
    exact ⟨_, bufWrite_at_cursor b hcap, Memory.read_write_same _ _ _, fun _ ha => Memory.read_write_other _ _ ha,
      Memory.wf_write _ _ _, Memory.within_write _ _ _ _ hcap⟩
  · unfold bufWrite
    rw [if_neg (by omega)]

/-- Settles O37: a byte's step stores at the cursor only (`Fed.storesOnlyAtCursor`), the other steps but `RESET` nowhere. -/
theorem stepsStoreOnlyTheAcceptedByteAtTheCursor : Obligations.StepsStoreOnlyTheAcceptedByteAtTheCursor := by
  intro s t h hreset
  rcases fed_or_quiet h with ⟨b, hstim, hfed⟩ | ⟨-, -, -, hbuf⟩
  · obtain ⟨hother, hat⟩ := hfed.storesOnlyAtCursor
    exact ⟨hother, fun hne => ⟨b, hstim, hat hne⟩⟩
  · exact ⟨fun _ _ => by rw [hbuf hreset], fun hne => absurd (by rw [hbuf hreset]) hne⟩

/-- Settles O39: a byte's step drives `acc` and emits at the checksum position only; the other steps drive neither output. -/
theorem outputsOnlyOnFeedEventsOnlyAtChecksum : Obligations.OutputsOnlyOnFeedEventsOnlyAtChecksum := by
  intro s t h
  rcases fed_or_quiet h with ⟨b, hstim, hfed⟩ | ⟨hnofeed, hacc, hev, -⟩
  · refine ⟨iff_of_true hfed.acc_ne_none ⟨b, hstim⟩, fun hne => ?_⟩
    obtain ⟨l, hlen, hpos⟩ := hfed.at_checksum_of_event hne
    exact ⟨b, l, hstim, hlen, hpos⟩
  · exact ⟨iff_of_false (not_not.mpr hacc) fun ⟨b, hstim⟩ => hnofeed b hstim, fun hne => absurd hev hne⟩

end Sys2Proof.Machine
end

section
/-! Frames and runs: what a run of accepted or rejected bytes is observed as, and O10, O15, O16, O17, O46, O47. -/

namespace Sys2Proof

/-! ### The bytes of a frame -/

@[simp] theorem frameBody_length (version ftype : Byte) (p : List Byte) : (frameBody version ftype p).length = 9 + p.length := by
  simp [frameBody, Config.preamble]
  omega

theorem frameBody_getElem?_preamble (version ftype : Byte) (p : List Byte) {i : Nat} (h : i < 6) :
    (frameBody version ftype p)[i]? = Config.preamble[i]? := by
  rw [frameBody, List.append_assoc, List.getElem?_append_left h]

theorem frameBody_version (version ftype : Byte) (p : List Byte) : (frameBody version ftype p)[6]? = some version := rfl

theorem frameBody_type (version ftype : Byte) (p : List Byte) : (frameBody version ftype p)[7]? = some ftype := rfl

theorem frameBody_lengthByte (version ftype : Byte) (p : List Byte) :
    (frameBody version ftype p)[8]? = some (BitVec.ofNat 8 p.length) := rfl

theorem frameBody_payload (version ftype : Byte) (p : List Byte) : (frameBody version ftype p).drop 9 = p := rfl

/-- The sum of the preamble's bytes is `0x1DD`, so `0xDD` modulo 256. -/
theorem sum8_frameBody_toNat (version ftype : Byte) {p : List Byte} (h : p.length ≤ 255) :
    (sum8 (frameBody version ftype p)).toNat
      = (0xDD + version.toNat + ftype.toNat + p.length + (p.map BitVec.toNat).sum) % 256 := by
  have hpre : (Config.preamble.map BitVec.toNat).sum = 0xDD + 256 := by decide
  simp only [sum8_toNat, frameBody, List.map_append, List.map_cons, List.map_nil, List.sum_append, List.sum_cons,
    List.sum_nil, toNat_lengthByte h, hpre]
  omega

/-- Settles O10: a frame is its body and the body's sum (R65, R67, R119). -/
theorem frameLengthAndChecksumFormula : Obligations.FrameLengthAndChecksumFormula := by
  intro version ftype p hp
  have hlen := frameBody_length version ftype p
  have htake : (frame version ftype p).take (9 + p.length) = frameBody version ftype p := by
    rw [frame, ← hlen, List.take_left]
  refine ⟨?_, ?_, ?_⟩
  · rw [frame, List.length_append, hlen, List.length_singleton]
    omega
  · rw [htake, frame, ← hlen, List.getElem?_concat_length]
  · rw [htake, sum8_frameBody_toNat version ftype hp]

end Sys2Proof

namespace Sys2Proof.Machine

/-! ### One byte's step, by the listing -/

/-- The step of a byte does what the listing says of it (R100). -/
theorem stepIs_feedListing {s : State} {b : Byte} {rest : List Stimulus} (hwf : s.cfg.wf = true) (hs : Assertions s)
    (hinq : s.inq = .feed b :: rest) : StepIs s rest (feedListing s b) :=
  stepAgreesWithTheListing s false (some b) rest hwf ((assertions_iff s).mpr hs) hinq

/-- A byte that the rules admit is `ADVANCE` at every position (R102 to R111). -/
theorem feedListing_of_admits {s : State} {b : Byte} (h : Admits s b) : feedListing s b = advanceListing s b := by
  obtain ⟨hpre, hver, hpay⟩ := h
  by_cases h6 : s.pos < 6
  · rw [feedListing_preamble b (hpre h6), if_pos rfl]
  by_cases hpos : s.pos = 6
  · rw [feedListing_version b hpos, if_pos (hver hpos)]
  by_cases h8 : s.pos = 7 ∨ s.pos = 8
  · exact feedListing_typeOrLength b h8
  obtain ⟨l, hlen, hle⟩ := hpay (by omega)
  exact feedListing_payload b (by omega) hlen hle

theorem advanceListing_of_lt {s : State} (b : Byte) (h : s.pos < s.cfg.bufCap) :
    advanceListing s b = .done (s.pos + 1) (s.buf.write s.pos b) .accept .none := by
  rw [advanceListing, if_neg (by omega)]

/-! ### What a run is observed as -/

theorem observe_succ {s t u : State} {n : Nat} {o : List (Acc × Event)} (hstep : step s = .next t)
    (h : observe n t = some (o, u)) : observe (n + 1) s = some ((t.acc, t.ev) :: o, u) := by
  simp only [observe, hstep, h, Option.map_some]

/-- A run is observed as its first part and then its second. -/
theorem observe_add {s t u : State} {m n : Nat} {o o' : List (Acc × Event)} (h : observe m s = some (o, t))
    (h' : observe n t = some (o', u)) : observe (m + n) s = some (o ++ o', u) := by
  induction m generalizing s o with
  | zero =>
    cases h
    simpa using h'
  | succ m ih =>
    simp only [observe] at h
    split at h
    · next v hv =>
      obtain ⟨⟨o₁, w⟩, ho₁, heq⟩ := Option.map_eq_some_iff.mp h
      cases heq
      rw [show m + 1 + n = m + n + 1 by omega]
      exact observe_succ hv (ih ho₁)
    · cases h
    · cases h

/-! ### Rejected bytes -/

/-- At position 0 bytes other than `I` are rejected one by one (R102). -/
theorem observe_rejected_at_zero {bs : List Byte} {s : State} {rest : List Stimulus} (hwf : s.cfg.wf = true)
    (hpos : s.pos = 0) (hbs : ∀ b ∈ bs, b ≠ 0x49#8) (hinq : s.inq = feeds bs ++ rest) :
    ∃ u, observe bs.length s = some (List.replicate bs.length (.reject, .none), u) ∧ u.pos = 0 ∧ u.inq = rest := by
  induction bs generalizing s with
  | nil => exact ⟨s, rfl, hpos, hinq⟩
  | cons b bs ih =>
    have hs := (assertions_iff s).mp (assertions_of_pos_zero hpos)
    have hstep := stepIs_feedListing hwf hs hinq
    rw [feedListing_preamble (want := 0x49#8) b (by rw [hpos]; rfl), if_neg (hbs b List.mem_cons_self)] at hstep
    obtain ⟨t, ht, htpos, -, hacc, hev, hcfg, htinq⟩ := hstep
    obtain ⟨u, hu, hupos, huinq⟩ := ih (by rw [hcfg, hwf]) htpos (fun x hx => hbs x (List.mem_cons_of_mem b hx)) htinq
    exact ⟨u, by simpa [hacc, hev, List.replicate_succ] using observe_succ ht hu, hupos, huinq⟩

/-! ### Accepted bytes -/

/-- A receiver that has accepted the bytes `done` of a frame. -/
structure Accumulated (s : State) (done : List Byte) : Prop where
  wf : s.cfg.wf = true
  assertions : Assertions s
  body : bufReadRange s 0 s.pos = some done

theorem Accumulated.pos_eq {s : State} {done : List Byte} (h : Accumulated s done) : s.pos = done.length :=
  (bufReadRange_length h.body).symm

theorem accumulated_of_pos_zero {s : State} (hwf : s.cfg.wf = true) (hpos : s.pos = 0) : Accumulated s [] :=
  ⟨hwf, (assertions_iff s).mp (assertions_of_pos_zero hpos), by rw [hpos]; rfl⟩

/-- The readable buffer is the accepted bytes (R249). -/
theorem Accumulated.visible_eq {s : State} {done : List Byte} (h : Accumulated s done) : s.visible = done.map some := by
  apply List.ext_getElem
  · simp [State.visible, h.pos_eq]
  · intro i hi hi'
    have hlt : i < s.pos := by simpa [State.visible] using hi
    have hget := bufRead_of_range h.body hlt
    simpa [State.visible, List.getElem?_eq_getElem (show i < done.length by rwa [← h.pos_eq])] using hget

theorem bufReadRange_concat {s t : State} {done : List Byte} {b : Byte} (h : bufReadRange s 0 s.pos = some done)
    (hpos : t.pos = s.pos + 1) (hbuf : t.buf = s.buf.write s.pos b) :
    bufReadRange t 0 t.pos = some (done ++ [b]) := by
  have hlen := bufReadRange_length h
  refine bufReadRange_eq_some.mpr ⟨by simp [hlen, hpos], fun i hi => ?_⟩
  rw [Nat.zero_add, bufRead_of_lt hi, hbuf]
  by_cases hat : i = s.pos
  · rw [hat, Memory.read_write_same, ← hlen, List.getElem?_concat_length]
  · have hlt : i < s.pos := by omega
    rw [Memory.read_write_other _ _ hat, List.getElem?_append_left (by omega), ← bufRead_of_range h hlt, bufRead_of_lt hlt]

/-- A byte that the rules admit, with room for it, is accepted. -/
theorem Accumulated.step_admitted {s : State} {done : List Byte} {b : Byte} {rest : List Stimulus}
    (h : Accumulated s done) (hadm : Admits s b) (hcap : s.pos < s.cfg.bufCap) (hinq : s.inq = .feed b :: rest) :
    ∃ t, step s = .next t ∧ Accumulated t (done ++ [b]) ∧ t.acc = .accept ∧ t.ev = .none ∧ t.cfg = s.cfg
      ∧ t.inq = rest := by
  have hstep := stepIs_feedListing h.wf h.assertions hinq
  rw [feedListing_of_admits hadm, advanceListing_of_lt b hcap] at hstep
  obtain ⟨t, ht, hpos, hbuf, hacc, hev, hcfg, htinq⟩ := hstep
  exact ⟨t, ht, ⟨by rw [hcfg, h.wf], (h.assertions.advanced hcap hadm).congr hcfg hpos hbuf,
    bufReadRange_concat h.body hpos hbuf⟩, hacc, hev, hcfg, htinq⟩

/-- The next byte of a frame's body is admitted where the bytes before it have been accepted. -/
theorem Accumulated.admits_next {s : State} {done after p : List Byte} {ftype b : Byte} (h : Accumulated s done)
    (hp : p.length ≤ 255) (hbody : frameBody s.cfg.version ftype p = done ++ b :: after) : Admits s b := by
  have hnext : (frameBody s.cfg.version ftype p)[s.pos]? = some b := by simp [hbody, h.pos_eq]
  refine ⟨fun h6 => ?_, fun h6 => ?_, fun h9 => ?_⟩
  · rw [← frameBody_getElem?_preamble s.cfg.version ftype p h6, hnext]
  · rw [h6, frameBody_version] at hnext
    exact (Option.some.inj hnext).symm
  · have hlt : s.pos < 9 + p.length := by
      rw [← frameBody_length s.cfg.version ftype p, hbody, h.pos_eq]
      simp
    refine ⟨BitVec.ofNat 8 p.length, ?_, by rw [toNat_lengthByte hp]; omega⟩
    rw [bufRead_of_range h.body (by omega), ← frameBody_lengthByte s.cfg.version ftype p, hbody,
      List.getElem?_append_left (by rw [← h.pos_eq]; omega)]

/-- The bytes of a frame's body, from any point of it on, are accepted one by one (R123). -/
theorem Accumulated.observe_body {bs : List Byte} {s : State} {done after p : List Byte} {ftype : Byte}
    {rest : List Stimulus} (h : Accumulated s done) (hp : p.length ≤ 255)
    (hbody : frameBody s.cfg.version ftype p = done ++ (bs ++ after)) (hcap : done.length + bs.length ≤ s.cfg.bufCap)
    (hinq : s.inq = feeds bs ++ rest) :
    ∃ u, observe bs.length s = some (List.replicate bs.length (.accept, .none), u) ∧ Accumulated u (done ++ bs)
      ∧ u.cfg = s.cfg ∧ u.inq = rest := by
  induction bs generalizing s done with
  | nil => exact ⟨s, rfl, by rwa [List.append_nil], rfl, hinq⟩
  | cons b bs ih =>
    rw [List.length_cons] at hcap
    obtain ⟨t, ht, hacc, htacc, htev, hcfg, htinq⟩ :=
      h.step_admitted (h.admits_next hp hbody) (by rw [h.pos_eq]; omega) hinq
    obtain ⟨u, hu, huacc, hucfg, huinq⟩ :=
      ih hacc (by simpa [hcfg] using hbody) (by rw [hcfg, List.length_append, List.length_singleton]; omega) htinq
    exact ⟨u, by simpa [htacc, htev, List.replicate_succ] using observe_succ ht hu, by simpa using huacc,
      by rw [hucfg, hcfg], huinq⟩

/-! ### The checksum byte -/

theorem frameEvent_rpc (c : Config) (p : List Byte) :
    frameEvent c Config.typeRpcCommand p = eventOf (decodeListing c p false) := by
  rw [frameEvent, if_pos rfl]
  cases decodeListing c p false <;> rfl

theorem frameEvent_other (c : Config) {ftype : Byte} (p : List Byte) (h : ftype ≠ Config.typeRpcCommand) :
    frameEvent c ftype p = .none := by rw [frameEvent, if_neg h]

/-- The right checksum byte completes the frame (R113, R114). -/
theorem AtChecksum.feedListing_right {s : State} {body : List Byte} {ftype : Byte} (h : AtChecksum s body)
    (htype : body[7]? = some ftype) :
    feedListing s (sum8 body) = .done 0 s.buf .accept (frameEvent s.cfg ftype (body.drop 9)) := by
  rw [h.feedListing_eq htype, if_neg (not_not.mpr rfl)]
  split
  · next h3 => rw [h3, frameEvent_rpc]
  · next h3 => rw [frameEvent_other s.cfg _ h3]

/-- A whole body accepted is the checksum position (R112). -/
theorem Accumulated.atChecksum {s : State} {version ftype : Byte} {p : List Byte}
    (h : Accumulated s (frameBody version ftype p)) (hp : p.length ≤ 255) : AtChecksum s (frameBody version ftype p) :=
  ⟨h.body, _, frameBody_lengthByte version ftype p, by rw [h.pos_eq, frameBody_length, toNat_lengthByte hp]⟩

/-! ### The obligations -/

/-- Settles O15: `PAY` is `ADVANCE`, which overflows at the capacity (R117). -/
theorem payloadPositionsAcceptOrOverflow : Obligations.PayloadPositionsAcceptOrOverflow := by
  intro s b l h9 hlen hle
  rw [exec_pay b h9 hlen hle]
  exact ⟨advance_accepts b, fun hfull => ⟨_, advance_of_ge b hfull, silentlyRejected_rejected s⟩⟩

/-- Settles O16: before the checksum position the cursor is at most `8 + 255`, below the capacity. -/
theorem noOverflowWithCapacity264 : Obligations.NoOverflowWithCapacity264 := by
  intro s b rest hinv hroom hinq h7 hbefore
  have hs := hinv.assertions_prop
  have ⟨hwf, _⟩ := hinv
  have hrun := fun i => hs.step_feed (i := i) hwf (stimulus_of_inq hinq)
  rw [← consume_of_inq hinq]
  obtain ⟨htype, hlength⟩ := typeAndLengthPositionsAcceptEveryByte s.consume b hwf
  by_cases hpos7 : s.pos = 7
  · rw [hrun _ (.typeByte hpos7)]
    exact htype hpos7
  by_cases hpos8 : s.pos = 8
  · rw [hrun _ (.lenByte hpos8)]
    obtain ⟨t, ht, hacc, -⟩ := hlength hpos8
    exact ⟨t, ht, hacc⟩
  · have h9 : 9 ≤ s.pos := by omega
    obtain ⟨l, hl, -⟩ := hs.inv4 h9
    rw [← bufRead_of_lt (by omega)] at hl
    have hle := hbefore l hl
    have hcap : s.pos < s.cfg.bufCap := by
      have := l.isLt
      omega
    rw [hrun _ (.pay l hl h9 hle)]
    exact (payloadPositionsAcceptOrOverflow s.consume b l h9 hl hle).1 hcap

/-- Settles O17: `I` is not `M`, so the cursor returns to 0, and none of the other five bytes is `I` (R116). -/
theorem secondPreambleStartIsNotResynchronised : Obligations.SecondPreambleStartIsNotResynchronised := by
  intro s rest hinv hpos hinq
  have ⟨hwf, _⟩ := hinv
  have hstep := stepIs_feedListing hwf hinv.assertions_prop hinq
  rw [feedListing_preamble (want := 0x4D#8) _ (by rw [hpos]; rfl), if_neg (by decide)] at hstep
  obtain ⟨t, ht, htpos, -, hacc, hev, hcfg, htinq⟩ := hstep
  obtain ⟨u, hu, hupos, huinq⟩ := observe_rejected_at_zero (bs := Config.preamble.tail) (by rw [hcfg, hwf]) htpos
    (by decide) htinq
  have hrun := observe_succ ht hu
  rw [hacc, hev] at hrun
  exact ⟨u, hrun, hupos, huinq⟩

/-- Settles O46: the seven bytes are the start of a frame's body, of whatever type. -/
theorem preambleAndVersionSynchroniseFromZero : Obligations.PreambleAndVersionSynchroniseFromZero := by
  intro s rest hwf hpos hinq
  have hcap := Config.nine_le_bufCap hwf
  obtain ⟨u, hu, hacc, -, huinq⟩ := (accumulated_of_pos_zero hwf hpos).observe_body
    (bs := Config.preamble ++ [s.cfg.version]) (after := [0#8, 0#8]) (p := []) (ftype := 0#8) (by simp) rfl
    (by simp [Config.preamble]; omega) hinq
  exact ⟨u, hu, hacc.pos_eq, huinq, hacc.visible_eq⟩

/-- Settles O47: the body's bytes are accepted one by one (`Accumulated.observe_body`), which is the checksum position, and the
right checksum byte completes the frame. -/
theorem wholeFrameIsAcceptedAndAnswered : Obligations.WholeFrameIsAcceptedAndAnswered := by
  intro s ftype p rest hwf hpos hp hcap hinq
  have hlen := frameBody_length s.cfg.version ftype p
  rw [frame, feeds, List.map_append, List.append_assoc] at hinq
  obtain ⟨u, hu, hacc, hucfg, huinq⟩ := (accumulated_of_pos_zero hwf hpos).observe_body
    (bs := frameBody s.cfg.version ftype p) (after := []) (ftype := ftype) hp (by simp) (by simpa using hcap) hinq
  have hstep := stepIs_feedListing hacc.wf hacc.assertions huinq
  rw [List.nil_append] at hacc
  rw [(hacc.atChecksum hp).feedListing_right (frameBody_type s.cfg.version ftype p), frameBody_payload, hucfg] at hstep
  obtain ⟨v, hv, hvpos, -, hvacc, hvev, hvcfg, hvinq⟩ := hstep
  have hrun := observe_add hu (observe_succ hv (n := 0) rfl)
  rw [hlen, hvacc, hvev, Nat.zero_add, show 9 + p.length + 1 = 10 + p.length by omega] at hrun
  exact ⟨v, hrun, hvpos, hvinq, by rw [hvcfg, hucfg]⟩

end Sys2Proof.Machine
end

section
/-! Recovery by filler bytes: O48. -/

namespace Sys2Proof.Machine

/-- Copies of `f`, at most `n` of them, bring the cursor to 0: it is there; or the position rejects `f`; or `f` is taken up to
the checksum position of a frame with `L = f`, or, where `L` stands already, of the frame begun. -/
inductive ZeroWithin (f : Byte) (s : State) (n : Nat) : Prop
  | start (hpos : s.pos = 0)
  | rejected (hn : 1 ≤ n) (h6 : s.pos ≤ 6) (hf : ¬ Admits s f)
  | header (h8 : s.pos ≤ 8) (hn : 10 + f.toNat ≤ s.pos + n)
  | payload (l : Byte) (h9 : 9 ≤ s.pos) (hlen : s.buf.read 8 = some l) (hn : 10 + l.toNat ≤ s.pos + n)

/-- Out of fillers the cursor is at 0: INV4 has it at or before the checksum position. -/
theorem ZeroWithin.pos_eq_zero {f : Byte} {s : State} (h : ZeroWithin f s 0) (hs : Assertions s) : s.pos = 0 := by
  cases h with
  | start hpos => exact hpos
  | rejected hn => omega
  | header h8 hn => omega
  | payload l h9 hlen hn =>
    obtain ⟨l', hl', hle⟩ := hs.inv4 h9
    obtain rfl : l = l' := Option.some.inj (hlen.symm.trans hl')
    omega

/-- The bound reads nothing of the stimuli. -/
theorem ZeroWithin.consume {f : Byte} {s : State} {n : Nat} (h : ZeroWithin f s n) : ZeroWithin f s.consume n := by
  cases h with
  | start hpos => exact .start hpos
  | rejected hn h6 hrej => exact .rejected hn h6 hrej
  | header h8 hn => exact .header h8 hn
  | payload l h9 hlen hn => exact .payload l h9 hlen hn

/-- A filler byte is rejected or accepted one position further, so one copy fewer is needed. -/
theorem ZeroWithin.step {f : Byte} {s t : State} {n : Nat} (h : ZeroWithin f s (n + 1)) (hf : f ≠ 0x49#8)
    (hfed : Fed s f t) : ZeroWithin f t n := by
  cases hfed with
  | reject ht => exact .start (by rw [ht, rejected_pos])
  | finish _ _ _ hpos => exact .start hpos
  | advance _ hadm ht =>
    subst ht
    cases h with
    | start hpos =>
      obtain ⟨hchar, -⟩ := hadm
      have h0 := hchar (by omega)
      rw [hpos] at h0
      exact absurd (Option.some.inj h0).symm hf
    | rejected _ _ hrej => exact absurd hadm hrej
    | header h8 hn =>
      by_cases hlast : s.pos = 8
      · exact .payload f (by rw [advanced_pos]; omega) (by rw [advanced_buf, hlast, Memory.read_write_same])
          (by rw [advanced_pos]; omega)
      · exact .header (by rw [advanced_pos]; omega) (by rw [advanced_pos]; omega)
    | payload l h9 hlen hn =>
      exact .payload l (by rw [advanced_pos]; omega)
        (by rw [advanced_buf, Memory.read_write_other _ _ (by omega), hlen]) (by rw [advanced_pos]; omega)

/-- The bounds of R246, position by position: a preamble character is at most `V` (`0x56`), a length at most 255. -/
theorem zeroWithin_of_inv {s : State} {f : Byte} {n : Nat} (hs : Assertions s)
    (hn : 258 ≤ n ∧ (f ≠ 0xFF#8 ∨ s.cfg.version ≠ 0xFF#8) ∨ 256 ≤ n ∧ f = 0x00#8) : ZeroWithin f s n := by
  have hlt := f.isLt
  have hbound : 258 ≤ n ∧ (f.toNat ≠ 255 ∨ s.cfg.version.toNat ≠ 255) ∨ 256 ≤ n ∧ f.toNat = 0 := by
    simpa [← BitVec.toNat_inj] using hn
  have hchar : ∀ c ∈ Config.preamble, c.toNat ≤ 0x56 := by decide
  by_cases hzero : s.pos = 0
  · exact .start hzero
  by_cases h9 : 9 ≤ s.pos
  · obtain ⟨l, hlen, -⟩ := hs.inv4 h9
    have := l.isLt
    exact .payload l h9 hlen (by omega)
  by_cases h7 : 7 ≤ s.pos
  · exact .header (by omega) (by omega)
  by_cases hadm : Admits s f
  · obtain ⟨hpre, hver, -⟩ := hadm
    refine .header (by omega) ?_
    by_cases h6 : s.pos = 6
    · have hsame : f.toNat = s.cfg.version.toNat := congrArg BitVec.toNat (hver h6)
      omega
    · have := hchar f (List.mem_of_getElem? (hpre (by omega)))
      omega
  · exact .rejected (by omega) (by omega) hadm

/-- Enough fillers run without a stop and end at cursor 0. -/
theorem observe_fillers {f : Byte} (hf : f ≠ 0x49#8) {n : Nat} {s : State} {rest : List Stimulus} (hinv : s.Inv)
    (hzero : ZeroWithin f s n) (hinq : s.inq = List.replicate n (.feed f) ++ rest) :
    ∃ o u, observe n s = some (o, u) ∧ u.pos = 0 ∧ u.inq = rest := by
  induction n generalizing s with
  | zero => exact ⟨[], s, rfl, hzero.pos_eq_zero hinv.assertions_prop, hinq⟩
  | succ n ih =>
    rw [List.replicate_succ, List.cons_append] at hinq
    have hstim := stimulus_of_inq hinq
    obtain ⟨t, ht⟩ := noStopUnderTheInvariant s hinv
    have htinv := everyStepKeepsTheInvariant s t hinv ht
    obtain ⟨-, htinq⟩ := everyStepKeepsConfigurationAndTakesOneStimulus s t ht
    have hfed : Fed s.consume f t := by
      rcases fed_or_quiet ht with ⟨b, hb, hfed⟩ | ⟨hnofeed, -⟩
      · rw [hstim] at hb
        cases hb
        exact hfed
      · exact absurd hstim (hnofeed f)
    obtain ⟨o, u, hu, hpos, huinq⟩ := ih htinv (hzero.consume.step hf hfed) (by rw [htinq, hinq, List.tail_cons])
    exact ⟨_, u, observe_succ ht hu, hpos, huinq⟩

/-- Settles O48: the bound holds at the start (`zeroWithin_of_inv`) and each step uses one filler of it (`ZeroWithin.step`). -/
theorem fillerBytesBringTheCursorToZero : Obligations.FillerBytesBringTheCursorToZero :=
  fun _ _ _ _ hinv hf hn hinq => observe_fillers hf hinv (zeroWithin_of_inv hinv.assertions_prop hn) hinq

end Sys2Proof.Machine
end

section
/-! The checksum byte as an instruction, the command decoder's remaining rows, and the event port: O11, O20, O21, O23, O27, O28,
O29, O32, O33, O34. -/

namespace Sys2Proof

/-! ### The rows of payloads written field by field -/

theorem classify_short (c : Config) {p : List Byte} (verify : Bool) (h : p.length < 2) : classify c p verify = .short := by
  match p, h with
  | [], _ => rfl
  | [_], _ => rfl

/-- Strings that fit are found whatever follows them, in either mode (R145, R147). -/
theorem wifiFields_framed_trailing (verify : Bool) (code : Byte) (ssid pw trailing : List Byte)
    (h : ssid.length + pw.length + trailing.length + 2 ≤ 255) :
    wifiFields (Machine.framedPayload verify code (Machine.wifiData ssid pw trailing)) = some (ssid, pw) := by
  obtain ⟨tail, htail, -⟩ := framedPayload_eq verify code (Machine.wifiData ssid pw trailing)
  rw [htail]
  exact wifiFields_strings _ _ _ _ _ _ (toNat_lengthByte (by simp [Machine.wifiData]; omega))

/-- Lengths that overrun the data are found in either mode: the payload checksum is no data (R146). -/
theorem wifiFields_framed_overrun (verify : Bool) (code : Byte) {data : List Byte} (hdata : data.length ≤ 255)
    (h : Machine.Overruns data) : wifiFields (Machine.framedPayload verify code data) = none := by
  obtain ⟨tail, htail, -⟩ := framedPayload_eq verify code data
  rw [htail]
  exact wifiFields_overrun _ _ _ _ (toNat_lengthByte hdata) h

theorem rowOfCode_overrun {c : Config} {p : List Byte} (h : wifiFields p = none) :
    rowOfCode c c.codeWifiSettings p = .wifiSettingsOverrun := by
  rw [rowOfCode, if_pos rfl, h]

section
variable {c : Config} (h : c.CodesDistinct) (p : List Byte)
include h

theorem Config.CodesDistinct.rowOfCode_getCurrentState : rowOfCode c c.codeGetCurrentState p = .getCurrentState := by
  rw [rowOfCode, if_neg h.wifi_state.symm, if_pos rfl]

theorem Config.CodesDistinct.rowOfCode_getDeviceInfo : rowOfCode c c.codeGetDeviceInfo p = .getDeviceInfo := by
  rw [rowOfCode, if_neg h.wifi_info.symm, if_neg h.state_info.symm, if_pos rfl]

theorem Config.CodesDistinct.rowOfCode_getWifiNetworks : rowOfCode c c.wifiNetworksCode p = .getWifiNetworks := by
  rw [rowOfCode, if_neg h.networks_wifi, if_neg h.networks_state, if_neg h.networks_info, if_pos rfl]

end

end Sys2Proof

namespace Sys2Proof.Machine

/-- The payload of R81 is the framed payload without a checksum byte and without trailing data. -/
theorem wifiPayload_eq_framedPayload (c : Config) (ssid pw : List Byte) :
    wifiPayload c ssid pw = framedPayload false c.codeWifiSettings (wifiData ssid pw []) := by
  simp [wifiPayload, framedPayload, wifiData]

/-! ### The code line -/

/-- Only an empty payload draws a free value (log entry 10). -/
theorem deliver_free {p : List Byte} {r : Verdict} {s t : State} (h : deliver p r s = .next t) (hp : p ≠ []) :
    t.free = s.free := by
  match r, p with
  | .malformed, _ =>
    cases h
    rfl
  | .command _, _ :: _ =>
    cases h
    rfl
  | .command _, [] => exact absurd rfl hp

/-- The code line beside a command event carries some byte, which is byte 0 of a payload that has one (R206). -/
theorem deliver_command_cmdCode {p : List Byte} {c : Command} {s t : State} (h : deliver p (.command c) s = .next t) :
    ∃ x, t.eventPort.cmdCode = some x ∧ ∀ code rest, p = code :: rest → x = code := by
  cases p with
  | nil =>
    cases h
    exact ⟨Config.freeCmdCode s.free, rfl, fun _ _ hp => by cases hp⟩
  | cons code rest =>
    cases h
    exact ⟨code, rfl, fun _ _ hp => (List.cons.inj hp).1⟩

theorem eventPort_cmdCode_of_err {t : State} {e : ErrorCode} (h : t.ev = .err e) : t.eventPort.cmdCode = none := by
  rw [State.eventPort, h]
  rfl

/-! ### The obligations: the checksum byte -/

/-- Settles O20: the meaning delivers the decoder's answer, which is the listing's. -/
theorem validRpcFrameEmitsTheDecodedCommand : Obligations.ValidRpcFrameEmitsTheDecodedCommand := by
  intro s b p h
  obtain ⟨t, ht, hpos, hbuf, hcfg, hinq, hacc, hev, hdec⟩ := deliver_spec p (decodeListing s.cfg p false) s
  refine ⟨t, by rw [exec_csumRpc h, decodeCommand_eq_decodeListing, ht], hpos, fun _ => by rw [hbuf], hacc, ?_, hdec, hcfg,
    hinq, deliver_free ht⟩
  rw [hev, frameEvent_rpc]

/-- Settles O21: `CSUM.OTHER` only returns to position 0 and drives its outputs. -/
theorem validOtherFrameCompletesSilently : Obligations.ValidOtherFrameCompletesSilently := fun _ _ hat htype =>
  ⟨_, hat.exec_csumOther htype, rfl, fun _ => rfl, ⟨rfl, rfl, rfl, rfl⟩, rfl, rfl, rfl⟩

/-- Settles O34: beside a command the line is `deliver`'s, and the port drives none beside an error. -/
theorem commandCodeLineIsPayloadByteZero : Obligations.CommandCodeLineIsPayloadByteZero := by
  intro s t b p hdone h
  refine ⟨fun c hc => ?_, fun _ => eventPort_cmdCode_of_err⟩
  rw [exec_csumRpc hdone] at h
  cases hr : decodeCommand s.cfg p false with
  | malformed =>
    rw [hr] at h
    cases h
    cases hc
  | command r =>
    rw [hr] at h
    exact deliver_command_cmdCode h

/-! ### The obligations: the command decoder -/

/-- Settles O32: the listing's answer (`decodeCommand_eq_decodeListing`) is the selected row's. -/
theorem decoderAgreesWithTheListing : Obligations.DecoderAgreesWithTheListing := by
  refine fun p verify => ⟨fun c => decodeCommand_eq_decodeListing c p verify, fun s => ?_⟩
  rw [← decodeCommand_eq_decodeListing]
  exact exec_row_answered rfl

/-- Settles O23: fewer than two bytes select `DEC.SHORT`, in either mode. -/
theorem shortPayloadIsUnknown : Obligations.ShortPayloadIsUnknown := fun s _ h =>
  ⟨fun verify => exec_row_answered (classify_short s.cfg verify h),
    fun _ hdone => exec_csumRpc_row (classify_short s.cfg false h) hdone⟩

/-- Settles O27: the fields of the payload are the two strings, whatever follows them. -/
theorem wifiSettingsIgnoresTrailingData : Obligations.WifiSettingsIgnoresTrailingData := by
  intro s ssid pw trailing hfit
  have hfields := fun verify => wifiFields_framed_trailing verify s.cfg.codeWifiSettings ssid pw trailing hfit
  exact framed_row_answers (row := .wifiSettings) (by simp [wifiData]; omega)
    (fun verify => rowOfCode_wifiSettings (hfields verify)) (fun verify => answer_wifiSettings (hfields verify))

/-- Settles O11: the payload's fields are its two strings. -/
theorem wifiPayloadDecodesToItsStrings : Obligations.WifiPayloadDecodesToItsStrings := by
  intro c ssid pw hfit
  have hfields := wifiFields_framed_wifiData false c.codeWifiSettings ssid pw (by omega)
  rw [wifiPayload_eq_framedPayload, decodeCommand, classify_framed c false _ _ (by simp [wifiData]; omega),
    rowOfCode_wifiSettings hfields, answer_wifiSettings hfields]

/-- Settles O28: overrunning lengths leave the payload without fields, so it selects `WIFI_SETTINGS.OVERRUN`. -/
theorem wifiSettingsOverrunIsInvalidRpc : Obligations.WifiSettingsOverrunIsInvalidRpc := by
  intro s data hdata hover
  exact framed_row_answers (row := .wifiSettingsOverrun) hdata
    (fun verify => rowOfCode_overrun (wifiFields_framed_overrun verify _ hdata hover)) (fun _ => rfl)

/-- Settles O29: with distinct codes each code selects its own row, whose answer reads no data. -/
theorem fieldlessCommandsIgnoreData : Obligations.FieldlessCommandsIgnoreData := by
  intro s hwf row hrow data hdata
  have hcodes := Config.codesDistinct hwf
  simp only [fieldlessRows, List.mem_cons, List.not_mem_nil, or_false] at hrow
  rcases hrow with rfl | rfl | rfl
  · exact framed_row_answers (row := .getCurrentState) hdata (fun _ => hcodes.rowOfCode_getCurrentState _) (fun _ => rfl)
  · exact framed_row_answers (row := .getDeviceInfo) hdata (fun _ => hcodes.rowOfCode_getDeviceInfo _) (fun _ => rfl)
  · exact framed_row_answers (row := .getWifiNetworks) hdata (fun _ => hcodes.rowOfCode_getWifiNetworks _) (fun _ => rfl)

/-! ### The obligations: the event port -/

/-- Settles O33: the tables of `encodeEvent`, read off line by line. -/
theorem eventPortLinesFollowTheTables : Obligations.EventPortLinesFollowTheTables := fun _ _ _ _ _ =>
  ⟨rfl, fun _ => rfl, fun _ => ⟨rfl, rfl⟩, rfl, rfl, rfl, rfl, rfl, rfl, rfl, rfl, rfl, rfl, rfl, rfl, rfl, rfl, rfl⟩

end Sys2Proof.Machine
end
